-- ==== Sys2Proof/Word.lean ====
section
/-! DEFINITION. The words of the codec: bits, bytes, packed quadruples, binary64 patterns, request and response words
(spec/00_scope.md R5, R6, R10; spec/30_encoding.md R60, R64). -/

namespace Sys2Proof

/-- One wire (R5). -/
abbrev Bit := BitVec 1

/-- One channel: an unsigned 8-bit digit (R10, R102). -/
abbrev Byte := BitVec 8

/-- The packed quadruple N (R10). -/
abbrev Word32 := BitVec 32

/-- A 64-bit port field (R60, R64). -/
abbrev Word64 := BitVec 64

/-- A binary64 bit pattern (R6). -/
abbrev F64 := BitVec 64

/-- The request word {req_valid, req_op, req_operand} (R60). -/
abbrev RequestWord := BitVec 66

/-- The response word {resp_valid, resp_op, resp_invalid, resp_data} (R64). -/
abbrev ResponseWord := BitVec 67

/-- The request port as the separate ports it is (R60, R32): the 66-bit word is a way of writing these three. -/
structure Request where
  valid   : Bit
  op      : Bit
  operand : Word64
  deriving DecidableEq, Repr

/-- A channel quadruple, most significant digit first (R10). -/
structure Quad where
  r : Byte
  g : Byte
  b : Byte
  a : Byte
  deriving DecidableEq, Repr

/-- The four binary64 operations of R7. -/
inductive ArithOp where
  | mul
  | add
  | sub
  | div
  deriving DecidableEq, Repr

end Sys2Proof
end

