-- ==== Sys2Proof/Syntax.lean ====
section
/-! DEFINITION. The instructions: one constructor per row of spec/opcode_table.json (spec/30_encoding.md R68).
The ignored bits of a request (R62, R63) are no operands: the decoder drops them (log entry 10). -/

namespace Sys2Proof

/-- The three rows of the opcode map (R68). -/
inductive Instr where
  /-- `nop`: a cycle without a request (R122). -/
  | nop
  /-- `enc f`: encode the binary64 scalar `f` (R80). -/
  | enc (f : F64)
  /-- `dec r, g, b, a`: decode a channel quadruple (R100). -/
  | dec (r g b a : Byte)
  deriving DecidableEq, Repr

end Sys2Proof
end

