-- ==== Sys2Proof/WellFormed.lean ====
section
/-! DEFINITION. What a well-formed instruction is, and the checks on numbers that come from outside the block.
Inside the block every operand has exactly its field's width (spec/30_encoding.md R61, R62, R69; spec/41_decoder.md R102),
so the types leave no ill-formed instruction. A host or an assembler may hold wider integers: those are checked here
(R72, R102, spec/93_implementation_defined.md I1), and refused by name by whoever asks. -/

namespace Sys2Proof

/-- Every value of every field is legal (R69): no instruction is ill-formed. One line per constructor, so that a new
constructor must be answered for. -/
def Instr.wellFormed : Instr → Bool
  | .nop => true
  | .enc _ => true
  | .dec _ _ _ _ => true

/-- A channel literal is 0 to 255 (R72, R102). -/
def channelOk (n : Nat) : Bool := decide (n < 2 ^ 8)

/-- The operand of `decw` has exactly 8 hexadecimal digits (R73). -/
def packedOk (digits : Nat) : Bool := decide (digits = 8)

/-- A raw binary64 literal has exactly 16 hexadecimal digits (R72). -/
def scalarDigitsOk (digits : Nat) : Bool := decide (digits = 16)

/-- A hexadecimal channel literal has one or two digits (R72). -/
def channelDigitsOk (digits : Nat) : Bool := decide (digits = 1 ∨ digits = 2)

/-- `nop <n>` takes n ≥ 1 (R73). -/
def idleCountOk (n : Nat) : Bool := decide (1 ≤ n)

/-- A number is a request word when it fits the 66 bits of the request port (R60). -/
def requestOk (w : Nat) : Bool := decide (w < 2 ^ 66)

end Sys2Proof
end

