-- ==== Sys2Proof/Decode.lean ====
section
/-! DEFINITION. The request word, the decoder and the encoder (spec/30_encoding.md R60 to R63, R68 to R70, R74). -/

namespace Sys2Proof

/-! ### The request word and its ports -/

/-- The 66-bit request word of the three ports (R60): bit 65 req_valid, bit 64 req_op, bits 63:0 req_operand. -/
def requestWord (q : Request) : RequestWord := q.valid ++ q.op ++ q.operand

/-- The three ports of a request word (R60). -/
def requestOfWord (w : RequestWord) : Request :=
  { valid := w.extractLsb' 65 1, op := w.extractLsb' 64 1, operand := w.extractLsb' 0 64 }

/-! ### The decoder -/

/-- The opcode map (R68), read as the table reads: bit 65 first, then bit 64. Total: every one of the 2^66 words is one
of the three rows (R69). Ignored bits have no effect (R62, R63). -/
def decode (w : RequestWord) : Instr :=
  if w.extractLsb' 65 1 = 0#1 then .nop
  else if w.extractLsb' 64 1 = 0#1 then .enc (w.extractLsb' 0 64)
  else .dec (w.extractLsb' 24 8) (w.extractLsb' 16 8) (w.extractLsb' 8 8) (w.extractLsb' 0 8)

/-- Why a number is no request: it has a bit the request port has no wire for (R60). -/
inductive RequestRefusal where
  | tooWide
  deriving DecidableEq, Repr

/-- A number as a request word, or the refusal's name. `nbits` is how many low bits of `w` count. -/
def requestOfNumber (nbits w : Nat) : Except RequestRefusal RequestWord :=
  if requestOk (w % 2 ^ nbits) then .ok (BitVec.ofNat 66 (w % 2 ^ nbits)) else .error .tooWide

/-- The instruction of a number whose bits are counted as spec/opcode_table.json counts them. The table's number and the
request word of R60 count their bits alike, so nothing is laid out anew. -/
def decodeTableWord (nbits w : Nat) : Option Instr :=
  match requestOfNumber nbits w with
  | .ok word => some (decode word)
  | .error _ => none

/-! ### The encoder, written from R61, R62 and R74 -/

/-- The operand field of an instruction: the scalar's bits (R61), or {0x00000000, r, g, b, a} (R62, R74). -/
def operandOf : Instr → Word64
  | .nop => 0#64
  | .enc f => f
  | .dec r g b a => 0#32 ++ (r ++ g ++ b ++ a)

/-- The request of an instruction (R74): ignored bits are written as zeros (R62, R72). -/
def requestOf (i : Instr) : Request :=
  match i with
  | .nop => { valid := 0#1, op := 0#1, operand := operandOf i }
  | .enc _ => { valid := 1#1, op := 0#1, operand := operandOf i }
  | .dec _ _ _ _ => { valid := 1#1, op := 1#1, operand := operandOf i }

/-- The request word of an instruction (R74). -/
def encode (i : Instr) : RequestWord := requestWord (requestOf i)

/-! ### The opcode map as match and mask (R68) -/

/-- The mask of the row an instruction belongs to (R68). -/
def rowMask : Instr → RequestWord
  | .nop => 0x20000000000000000#66
  | .enc _ => 0x30000000000000000#66
  | .dec _ _ _ _ => 0x30000000000000000#66

/-- The match value of the row an instruction belongs to (R68). -/
def rowMatch : Instr → RequestWord
  | .nop => 0x00000000000000000#66
  | .enc _ => 0x20000000000000000#66
  | .dec _ _ _ _ => 0x30000000000000000#66

/-- The mnemonic of the row an instruction belongs to (R68). -/
def mnemonicOf : Instr → String
  | .nop => "nop"
  | .enc _ => "enc"
  | .dec _ _ _ _ => "dec"

/-- The three rows of R68 as (mnemonic, mask, match). -/
def opcodeRows : List (String × RequestWord × RequestWord) :=
  [("nop", 0x20000000000000000#66, 0x00000000000000000#66),
   ("enc", 0x30000000000000000#66, 0x20000000000000000#66),
   ("dec", 0x30000000000000000#66, 0x30000000000000000#66)]

/-- The rows a word matches (R68). -/
def matchingRows (w : RequestWord) : List String :=
  (opcodeRows.filter fun row => w &&& row.2.1 == row.2.2).map Prod.fst

/-- The bits of a word that its row gives a meaning: the rest is ignored (R62, R63). -/
def meaningfulBits : Instr → RequestWord
  | .nop => 0x20000000000000000#66
  | .enc _ => 0x3FFFFFFFFFFFFFFFF#66
  | .dec _ _ _ _ => 0x300000000FFFFFFFF#66

end Sys2Proof
end

