-- ==== Sys2Proof/Machine/Operands.lean ====
section
/-! DEFINITION. Quadruples and their packed form (spec/00_scope.md R10), the order of a pixel's bytes (spec/20_memory.md
R41, R42), and the layout of a response (spec/30_encoding.md R65). -/

namespace Sys2Proof.Machine

/-- pack(r, g, b, a) = {r, g, b, a}: r in bits 31:24, a in bits 7:0 (R10). -/
def pack (r g b a : Byte) : Word32 := r ++ g ++ b ++ a

/-- unpack(N) = (N[31:24], N[23:16], N[15:8], N[7:0]) (R10). -/
def unpack (n : Word32) : Quad :=
  { r := n.extractLsb' 24 8, g := n.extractLsb' 16 8, b := n.extractLsb' 8 8, a := n.extractLsb' 0 8 }

/-- The bytes of a pixel, byte offset 0 first: r, g, b, a (R41), the big-endian serialization of N (R42). -/
def pixelBytes (n : Word32) : List Byte :=
  [n.extractLsb' 24 8, n.extractLsb' 16 8, n.extractLsb' 8 8, n.extractLsb' 0 8]

/-- N of the four bytes of a pixel (R41, R42); any other number of bytes is no pixel. -/
def pixelOfBytes : List Byte → Option Word32
  | [r, g, b, a] => some (pack r g b a)
  | _ => none

/-- zext_64(N), the data of an ENC response (R65). -/
def zext64 (n : Word32) : Word64 := n.setWidth 64

end Sys2Proof.Machine
end

