-- ==== Sys2Proof/Config.lean ====
section
/-! DEFINITION. What is fixed for the hardware (spec/00_scope.md R4, R9 and section 4), and the free values. -/

namespace Sys2Proof

/-- EPS = fl64(1e-7), the clamping margin (R9). A constant of the hardware (R4), not a register (R29). -/
def Config.eps : F64 := 0x3E7AD7F29ABCAF48#64

/-- CLAMP_HI = fl64(1 - EPS), the upper clamp bound of this hardware (R9, R4). -/
def Config.clampHi : F64 := 0x3FEFFFFFCA501ACB#64

/-- FREE VALUE (log entry 6): what a binary64 operation gives outside the finite operands for which R7 defines it.
No rule of ENC or DEC applies one there. -/
opaque Config.unstatedResult : ArithOp → F64 → F64 → F64

/-- FREE VALUE (log entry 6): the floor of a pattern that is not finite, for which R8 gives none.
No rule of ENC asks for it. -/
opaque Config.unstatedFloor : F64 → Int

end Sys2Proof
end

