-- ==== Sys2Proof/Machine/Binary64.lean ====
section
/-! DEFINITION. IEEE 754 binary64 as spec/00_scope.md uses it: the value of a pattern and the order (R6), rounding and the
four operations (R7), floor and to64 (R8). Exact values are rational numbers: every real a rule names is one. -/

namespace Sys2Proof.Machine

/-! ### The value of a pattern (R6) -/

/-- S = f[63] (R6). -/
def signOf (f : F64) : Bit := f.extractLsb' 63 1

/-- E = f[62:52], the biased exponent (R6). -/
def exponentOf (f : F64) : Nat := (f.extractLsb' 52 11).toNat

/-- M = f[51:0], the fraction (R6). -/
def fractionOf (f : F64) : Nat := (f.extractLsb' 0 52).toNat

/-- isNaN(f): E = 2047 and M ≠ 0 (R6). -/
def isNaN (f : F64) : Bool := exponentOf f == 2047 && fractionOf f != 0

/-- E = 2047 and M = 0 (R6). -/
def isInfinite (f : F64) : Bool := exponentOf f == 2047 && fractionOf f == 0

/-- What a pattern that is no NaN denotes: a real number or an infinity (R6). -/
inductive Ext where
  | negInf
  | real (x : ℚ)
  | posInf
  deriving DecidableEq, Repr

/-- The absolute value of a finite pattern: (2^52 + M) · 2^(E − 1075) when normal, M · 2^(−1074) when subnormal or
zero (R6). -/
def magnitudeOf (f : F64) : ℚ :=
  if exponentOf f = 0 then (fractionOf f : ℚ) * 2 ^ (-1074 : Int)
  else ((2 ^ 52 + fractionOf f : Nat) : ℚ) * 2 ^ ((exponentOf f : Int) - 1075)

/-- val(f), undefined (`none`) for a NaN (R6). -/
def valueOf (f : F64) : Option Ext :=
  if isNaN f then none
  else if isInfinite f then some (if signOf f = 1#1 then .negInf else .posInf)
  else some (.real (if signOf f = 1#1 then -magnitudeOf f else magnitudeOf f))

/-- The order of values (R6): −∞ below every real, +∞ above. -/
def extLt : Ext → Ext → Bool
  | .negInf, .negInf => false
  | .negInf, _ => true
  | .real x, .real y => decide (x < y)
  | .real _, .posInf => true
  | .real _, .negInf => false
  | .posInf, _ => false

/-- val(a) < val(b) (R6). R6 orders only patterns that are no NaN; a NaN is below nothing and above nothing here, and no
rule asks (log entry 9). -/
def valueLt (a b : F64) : Bool :=
  match valueOf a, valueOf b with
  | some x, some y => extLt x y
  | _, _ => false

/-! ### Rounding (R7) -/

/-- The k with 2^k ≤ x < 2^(k+1), for x > 0. -/
def binadeOf (x : ℚ) : Int :=
  let k : Int := (x.num.natAbs.log2 : Int) - (x.den.log2 : Int)
  if (2 : ℚ) ^ k ≤ x then k else k - 1

/-- The exponent of the last place of the binary64 numbers around x > 0: 52 places below the leading one, and never below
the subnormals' −1074 (R6). -/
def lastPlaceOf (x : ℚ) : Int := max (binadeOf x - 52) (-1074)

/-- The integer nearest to y, ties to the even one. -/
def roundHalfEven (y : ℚ) : Int :=
  if y - ⌊y⌋ < 1 / 2 then ⌊y⌋
  else if 1 / 2 < y - ⌊y⌋ then ⌊y⌋ + 1
  else if ⌊y⌋ % 2 = 0 then ⌊y⌋ else ⌊y⌋ + 1

/-- The pattern of +∞ (R6). -/
def posInfBits : F64 := 0x7FF0000000000000#64

/-- fl64 of x ≥ 0 (R7). With t the last place and m = x / 2^t rounded, the pattern is (t + 1074) · 2^52 + m whatever the
class: for a normal number the leading one of m carries into the exponent field, for a subnormal the exponent field is 0,
and an m rounded up to 2^53 gives the next binade. Beyond the largest finite number it is +∞ (log entry 8). -/
def fl64Abs (x : ℚ) : F64 :=
  if x = 0 then 0#64
  else
    let t := lastPlaceOf x
    let m := (roundHalfEven (x / 2 ^ t)).toNat
    BitVec.ofNat 64 (min ((t + 1074).toNat * 2 ^ 52 + m) posInfBits.toNat)

/-- fl64(e): the binary64 value nearest to the exact real e, ties to even M (R7). fl64(0) is +0.0 (log entry 5). -/
def fl64 (e : ℚ) : F64 :=
  if e < 0 then 0x8000000000000000#64 ||| fl64Abs (-e) else fl64Abs e

/-! ### The operations (R7) -/

/-- The exact real result of an operation; a quotient by 0 has none (R7). -/
def exactResult (op : ArithOp) (x y : ℚ) : Option ℚ :=
  match op with
  | .mul => some (x * y)
  | .add => some (x + y)
  | .sub => some (x - y)
  | .div => if y = 0 then none else some (x / y)

/-- fl64 of the exact real result (R7); a free value where R7 defines none (log entry 6). -/
def arith64 (op : ArithOp) (a b : F64) : F64 :=
  match valueOf a, valueOf b with
  | some (.real x), some (.real y) =>
    match exactResult op x y with
    | some z => fl64 z
    | none => Config.unstatedResult op a b
  | _, _ => Config.unstatedResult op a b

/-- a ×64 b (R7). -/
def mul64 (a b : F64) : F64 := arith64 .mul a b

/-- a +64 b (R7). -/
def add64 (a b : F64) : F64 := arith64 .add a b

/-- a −64 b (R7). -/
def sub64 (a b : F64) : F64 := arith64 .sub a b

/-- a /64 b (R7). -/
def div64 (a b : F64) : F64 := arith64 .div a b

/-! ### Integers (R8) -/

/-- floor(v): the greatest integer n with n ≤ val(v), for a finite v (R8). -/
def floor64 (v : F64) : Int :=
  match valueOf v with
  | some (.real x) => ⌊x⌋
  | _ => Config.unstatedFloor v

/-- to64(n): the binary64 value equal to the integer n (R8), exact below 2^53. -/
def to64 (n : Nat) : F64 := fl64 n

end Sys2Proof.Machine
end

