-- ==== Sys2Proof/Machine/State.lean ====
section
/-! DEFINITION. The state of the block as plain data (spec/10_state.md R24 to R27, R33 and section 4;
spec/60_exceptions.md R141), the reasons a step can stop, and the state right after reset (spec/70_reset_and_hazards.md
R171). The block has no memory (spec/20_memory.md R40), no program counter (R21) and no control register (R29), so State
holds none. -/

namespace Sys2Proof.Machine

/-- The fault of the model. No step of the block STOPS with it: R141 has the request complete and the next one proceed,
and asks the model to treat the state as a fault and to keep the mark. It is recorded in `State.faultMark`. -/
inductive Fault where
  /-- A valid response with RESP_INVALID = 1, an ENC of a NaN (R141, R81). Recorded by `writeResp` in Machine/Ops.lean.
  Going on where the spec bids the model call the state a fault is unsafe only for a claim that leans on the digits of
  that response without taking a clean run as premise (log entry 3). -/
  | respInvalid
  deriving DecidableEq, Repr

/-- Why the model has no step. -/
inductive Refusal where
  /-- Answered by `exec` for an instruction that has no meaning yet. Safe. -/
  | notModelled (mnemonic : String)
  /-- Answered by every instruction on the unreset block (R33, R121 REFUSE, R173). Safe: "toward unprovable". -/
  | unreset
  /-- Answered by `step` when the host drives no further cycle: the run has ended (R129), no clock edge comes, and no
  step happens (R120, R152). Safe (log entry 2). -/
  | noCycleDriven
  deriving DecidableEq, Repr

/-- The four response registers (R24 to R27), the block's whole architectural state. -/
structure Resp where
  /-- RESP_VALID (R24). -/
  valid   : Bit
  /-- RESP_OP (R25): 0 for ENC, 1 for DEC. -/
  op      : Bit
  /-- RESP_DATA (R26). -/
  data    : Word64
  /-- RESP_INVALID (R27). -/
  invalid : Bit
  deriving DecidableEq, Repr

/-- The inputs the host drives during one cycle, `in_t` of R120. -/
structure Pins where
  rst : Bit
  req : Request
  deriving DecidableEq, Repr

/-- What the host can do to the block between two states (R120, R152). -/
inductive HostEvent where
  /-- One clock cycle with these inputs, sampled at the rising edge that ends it (R120). -/
  | cycle (p : Pins)
  /-- The clock stands still with power on (R152). -/
  | clockStopped
  /-- Power is removed (R152). -/
  | powerLoss
  deriving DecidableEq, Repr

/-- The state. -/
structure State where
  /-- The response registers; `none` is the *unreset* state (R33, section 4 `Machine := Option State`). -/
  resp      : Option Resp
  /-- The model's own: what the host will do, next event first (R120, R129; log entry 1). Not state of the block (R32). -/
  host      : List HostEvent
  /-- The sticky fault mark of the run (R141; log entry 4). -/
  faultMark : Option Fault
  deriving DecidableEq, Repr

/-- ResetState (R171, section 4): the reset values of R24 to R27. -/
def Resp.reset : Resp := { valid := 0#1, op := 0#1, data := 0x0000000000000000#64, invalid := 0#1 }

/-- The machine right after reset: the registers as R171 says, no fault marked, and nothing driven yet (log entry 2). -/
def State.reset : State := { resp := some Resp.reset, host := [], faultMark := none }

/-- The machine after power-up, before the first reset (R173): unreset. -/
def State.powerOn : State := { resp := none, host := [], faultMark := none }

end Sys2Proof.Machine
end

