-- ==== Sys2Proof/Machine/Flags.lean ====
section
/-! DEFINITION. The block's one flag, RESP_INVALID (spec/10_state.md R22, R27; spec/40_encoder.md R81), and the fault it
shows (spec/60_exceptions.md R141). There are no condition codes (R22) and no IEEE flags (spec/92_eei_decisions.md D19). -/

namespace Sys2Proof.Machine

/-- The RESP_INVALID an ENC of `f` writes: 1 exactly when `f` is a NaN (R80, R81). -/
def invalidFlag (f : F64) : Bit := if isNaN f then 1#1 else 0#1

/-- The registers show the fault of R141: RESP_VALID = 1 together with RESP_INVALID = 1. -/
def respShowsFault (r : Resp) : Bool := r.valid == 1#1 && r.invalid == 1#1

/-- The state shows the fault of R141. The unreset state shows nothing (R33). -/
def stateShowsFault (s : State) : Bool :=
  match s.resp with
  | some r => respShowsFault r
  | none => false

end Sys2Proof.Machine
end

