-- ==== Sys2Proof/Machine/Ops.lean ====
section
/-! DEFINITION. The named operations over the response registers. The block has no memory and no other register
(spec/10_state.md R20, R29, R30; spec/20_memory.md R40), and no exception to take or to return from
(spec/60_exceptions.md R140, R144, R145): what stands in an exception's place is the mark of R141, set here. -/

namespace Sys2Proof.Machine

/-- All four response registers take new values together (R45); a response that shows the fault is marked, and a mark,
once set, stays (R141). -/
def writeResp (x : Resp) (s : State) : State :=
  { s with resp := some x, faultMark := if respShowsFault x then some .respInvalid else s.faultMark }

/-- What every instruction is: at the clock edge the registers `r` become `next r`. The unreset block has no step but a
reset (R33, R121, R173). -/
def respond (next : Resp → Resp) (s : State) : Host.Outcome State Fault Refusal :=
  match s.resp with
  | none => .refused .unreset
  | some r => .next (writeResp (next r) s)

/-- An edge with rst = 1: the reset state, whatever the state was, the unreset state too (R171). -/
def takeReset (s : State) : State := writeResp Resp.reset s

/-- Power is removed: the block is unreset (R152). -/
def losePower (s : State) : State := { s with resp := none }

/-- The output ports (R28): the four registers themselves; an unreset block shows no meaningful value (R173). -/
def outputPorts (s : State) : Option Resp := s.resp

/-- The response word (R64): bit 66 resp_valid, bit 65 resp_op, bit 64 resp_invalid, bits 63:0 resp_data. -/
def responseWord (r : Resp) : ResponseWord := r.valid ++ r.op ++ r.invalid ++ r.data

end Sys2Proof.Machine
end

