-- ==== Sys2Proof/Machine/Decoder.lean ====
section
/-! DEFINITION. DEC, rgba_to_float_decoder (spec/41_decoder.md). -/

namespace Sys2Proof.Machine

/-- One term of the accumulator: a digit over its weight (R103). -/
def weighted (digit : Byte) (weight : Nat) : F64 := div64 (to64 digit.toNat) (to64 weight)

/-- The accumulator before the first addition: the digit of weight 256^0 (R103). -/
def accZero (q : Word32) : F64 := to64 (unpack q).r.toNat

/-- The accumulator after the first addition, of weight 256^-1 (R103). -/
def accOne (q : Word32) : F64 := add64 (accZero q) (weighted (unpack q).g 256)

/-- The accumulator after the second addition, of weight 256^-2 (R103). -/
def accTwo (q : Word32) : F64 := add64 (accOne q) (weighted (unpack q).b 65536)

/-- The accumulator after the third addition, of weight 256^-3 (R103). -/
def accThree (q : Word32) : F64 := add64 (accTwo q) (weighted (unpack q).a 16777216)

/-- DEC_fn, the pure function of DEC (R103): the terms added left to right, then the overall scale. -/
def decFn (q : Word32) : F64 := div64 (accThree q) (to64 256)

/-- The registers after a DEC of a quadruple (R100). -/
def decResp (r g b a : Byte) : Resp :=
  { valid := 1#1, op := 1#1, data := decFn (pack r g b a), invalid := 0#1 }

/-- `dec r, g, b, a` (R100). -/
def execDec (r g b a : Byte) (s : State) : Host.Outcome State Fault Refusal := respond (fun _ => decResp r g b a) s

end Sys2Proof.Machine
end

