-- ==== Sys2Proof/Machine/Encoder.lean ====
section
/-! DEFINITION. ENC, float_to_rgba_encoder (spec/40_encoder.md). The clamp bound is an argument of the functions ending in
`At`, as spec/00_scope.md R4 allows; the hardware's functions take `Config.clampHi`. -/

namespace Sys2Proof.Machine

/-- clamp(f), for an f that is no NaN (R82): +0.0 below 0, the bound above the bound, else f itself. −0.0 is not below 0
and passes. -/
def clampAt (hi f : F64) : F64 :=
  if valueLt f 0#64 then 0#64
  else if valueLt hi f then hi
  else f

/-- clamp(f) of this hardware (R82, R9). -/
def clamp (f : F64) : F64 := clampAt Config.clampHi f

/-- v ×64 256 (R83). -/
def scaled (v : F64) : F64 := mul64 v (to64 256)

/-- The digit floor(v) of a scaled value, stored in its 8-bit field (R83, R8). -/
def digitOf (v : F64) : Byte := BitVec.ofInt 8 (floor64 v)

/-- v −64 to64(digit): what is left of a scaled value (R83). -/
def remainderOf (v : F64) : F64 := sub64 v (to64 (digitOf v).toNat)

/-- ENC_fn with the clamp bound as an argument (R83, R4). The remainder after `a` is not computed. -/
def encFnAt (hi f : F64) : Word32 × Bit :=
  if isNaN f then (0x00000000#32, invalidFlag f)
  else
    let v₁ := scaled (clampAt hi f)
    let v₂ := scaled (remainderOf v₁)
    let v₃ := scaled (remainderOf v₂)
    let v₄ := scaled (remainderOf v₃)
    (pack (digitOf v₁) (digitOf v₂) (digitOf v₃) (digitOf v₄), invalidFlag f)

/-- ENC_fn, the pure function of ENC (R83). -/
def encFn (f : F64) : Word32 × Bit := encFnAt Config.clampHi f

/-- The registers after an ENC of `f` (R80). -/
def encResp (f : F64) : Resp :=
  { valid := 1#1, op := 0#1, data := zext64 (encFn f).1, invalid := (encFn f).2 }

/-- `enc f` (R80). -/
def execEnc (f : F64) (s : State) : Host.Outcome State Fault Refusal := respond (fun _ => encResp f) s

end Sys2Proof.Machine
end

