-- ==== Sys2Proof/Machine/Idle.lean ====
section
/-! DEFINITION. `nop`, the idle cycle (spec/44_interface_cycle.md R122). -/

namespace Sys2Proof.Machine

/-- RESP_VALID falls to 0; RESP_OP, RESP_DATA and RESP_INVALID are held (R122). -/
def idleResp (r : Resp) : Resp := { r with valid := 0#1 }

/-- `nop` (R122). -/
def execNop (s : State) : Host.Outcome State Fault Refusal := respond idleResp s

end Sys2Proof.Machine
end

