-- ==== Sys2Proof/Machine/Dispatch.lean ====
section
/-! DEFINITION. One arm per instruction (spec/44_interface_cycle.md R121). -/

namespace Sys2Proof.Machine

def exec (i : Instr) (s : State) : Host.Outcome State Fault Refusal :=
  match i with
  | .nop => Sys2Proof.Machine.execNop s
  | .enc f => Sys2Proof.Machine.execEnc f s
  | .dec r g b a => Sys2Proof.Machine.execDec r g b a s

end Sys2Proof.Machine
end

