-- ==== Sys2Proof/Machine/Cycle.lean ====
section
/-! DEFINITION. What one event of the host does (spec/44_interface_cycle.md R120, R121; spec/60_exceptions.md R152), and
how a request or a program is put on the port. -/

namespace Sys2Proof.Machine

/-- The instruction the request port carries this cycle (R68). -/
def pinsInstr (p : Pins) : Instr := decode (requestWord p.req)

/-- step(s, in) of R121: a reset beats a request, which is then dropped (R171); else the request's instruction runs. -/
def clockEdge (p : Pins) (s : State) : Host.Outcome State Fault Refusal :=
  if p.rst = 1#1 then .next (takeReset s) else exec (pinsInstr p) s

/-- One event of the host: a clock cycle (R121), a stopped clock, under which the registers hold, or power loss (R152). -/
def hostEvent (e : HostEvent) (s : State) : Host.Outcome State Fault Refusal :=
  match e with
  | .cycle p => clockEdge p s
  | .clockStopped => .next s
  | .powerLoss => .next (losePower s)

/-- A cycle with rst = 0 that carries a request word. -/
def requestPins (w : RequestWord) : Pins := { rst := 0#1, req := requestOfWord w }

/-- The cycle of a `reset` line (R74): rst = 1, nothing on the request port. -/
def resetPins : Pins := { rst := 1#1, req := { valid := 0#1, op := 0#1, operand := 0#64 } }

/-- The cycle of an instruction's line (R74). -/
def instrPins (i : Instr) : Pins := { rst := 0#1, req := requestOf i }

/-- The host is given a list of cycles to drive, one after the other (R120, R71). -/
def driveCycles (ps : List Pins) (s : State) : State := { s with host := ps.map .cycle }

/-- The host drives one request word in the next cycle, in place of what it would have done next. -/
def driveNext (w : RequestWord) (s : State) : State :=
  { s with host := .cycle (requestPins w) :: s.host.tail }

end Sys2Proof.Machine
end

