-- ==== Sys2Proof/Machine/Step.lean ====
section
/-! DEFINITION. The step (spec/44_interface_cycle.md R120, R121): the next event of the host's schedule is taken and its
effect on the block is what Machine/Cycle.lean says. -/

namespace Sys2Proof.Machine

/-- One step. With nothing left in the schedule the run has ended (R129; log entry 2). -/
def step (s : State) : Host.Outcome State Fault Refusal :=
  match s.host with
  | [] => .refused .noCycleDriven
  | e :: rest => hostEvent e { s with host := rest }

/-- `s` with a table word as the request of the next cycle (log entry 2). A number that is no request word (R60) cannot be
driven: then the host drives nothing, and the step is refused as the decoder refuses. -/
def State.withFetchWord (s : State) (nbits w : Nat) : State :=
  match requestOfNumber nbits w with
  | .ok word => driveNext word s
  | .error _ => { s with host := [] }

end Sys2Proof.Machine
end

