-- ==== Sys2Proof/Machine/AsmSyntax.lean ====
section
/-! DEFINITION. The statements of the assembler as data (spec/30_encoding.md R71 to R73): a literal is held as it was
written, so that a literal the assembler refuses can be held too. -/

namespace Sys2Proof.Machine

/-- A scalar literal `<f64>` (R72). -/
inductive ScalarLit where
  /-- ± digits · 10^exp10, a decimal floating literal. -/
  | decimal (negative : Bool) (digits : Nat) (exp10 : Int)
  /-- `0x` and so many hexadecimal digits of this value. -/
  | hex (digits value : Nat)
  | nan
  | inf
  | negInf
  deriving DecidableEq, Repr

/-- A channel literal `<ch>` (R72). -/
inductive ChannelLit where
  | decimal (value : Nat)
  /-- `0x` and so many hexadecimal digits of this value. -/
  | hex (digits value : Nat)
  deriving DecidableEq, Repr

/-- One line of a program (R71), the pseudo-instructions among them (R73). -/
inductive Stmt where
  | enc (f : ScalarLit)
  | dec (r g b a : ChannelLit)
  | nop
  | reset
  /-- `decw 0x…` with so many hexadecimal digits of this value (R73). -/
  | decw (digits value : Nat)
  /-- `nop <n>` (R73). -/
  | nops (n : Nat)
  deriving DecidableEq, Repr

/-- Why the assembler refuses a line (R72). -/
inductive AsmReason where
  /-- A channel outside [0, 255] (R72, R102). -/
  | channelOutOfRange
  /-- A hexadecimal channel that has not one or two digits (R72). -/
  | channelDigits
  /-- A hexadecimal scalar that has not exactly 16 digits (R72). -/
  | scalarDigits
  /-- A `decw` operand that has not exactly 8 hexadecimal digits (R73). -/
  | packedDigits
  /-- `nop 0` (R73). -/
  | idleCount
  /-- Any other spelling (R72). -/
  | spelling
  deriving DecidableEq, Repr

/-- A refused line: its number, counted from 1, and why (R72 "naming the line"). -/
structure AsmError where
  line   : Nat
  reason : AsmReason
  deriving DecidableEq, Repr

end Sys2Proof.Machine
end

