-- ==== Sys2Proof/Machine/Assembler.lean ====
section
/-! DEFINITION. The assembler (spec/30_encoding.md R71 to R74): from the text of a program to the cycles the host drives,
one line a cycle. It is notation for the host (spec/92_eei_decisions.md D16), not a part of the block. Spellings that R71
to R73 leave open are refused or read as log entry 13 says. -/

namespace Sys2Proof.Machine

/-! ### Values of literals (R72) -/

/-- The pattern of a scalar literal (R72). A raw literal that is not 16 digits, or holds what 16 digits cannot spell, is
refused. A minus sign sets the sign bit, so that `-0.0` is 0x8000000000000000. -/
def scalarBits : ScalarLit → Except AsmReason F64
  | .decimal negative digits exp10 =>
    let m := fl64Abs ((digits : ℚ) * 10 ^ exp10)
    .ok (if negative then 0x8000000000000000#64 ||| m else m)
  | .hex digits value =>
    if scalarDigitsOk digits && decide (value < 2 ^ 64) then .ok (BitVec.ofNat 64 value) else .error .scalarDigits
  | .nan => .ok 0x7FF8000000000000#64
  | .inf => .ok 0x7FF0000000000000#64
  | .negInf => .ok 0xFFF0000000000000#64

/-- The channel of a literal, refused outside [0, 255], and in hexadecimal unless it is one or two digits (R72). -/
def channelByte : ChannelLit → Except AsmReason Byte
  | .decimal n => if channelOk n then .ok (BitVec.ofNat 8 n) else .error .channelOutOfRange
  | .hex digits n =>
    if channelDigitsOk digits && decide (n < 16 ^ digits) then .ok (BitVec.ofNat 8 n) else .error .channelDigits

/-! ### Statements (R71, R73, R74) -/

/-- The instruction of `decw H` (R73): `dec H[31:24], H[23:16], H[15:8], H[7:0]`. -/
def decwInstr (h : Word32) : Instr := .dec (unpack h).r (unpack h).g (unpack h).b (unpack h).a

/-- The cycles of a statement (R71, R73, R74), or the refusal's name (R72). -/
def stmtCycles : Stmt → Except AsmReason (List Pins)
  | .enc f => do
    let bits ← scalarBits f
    .ok [instrPins (.enc bits)]
  | .dec r g b a => do
    let r' ← channelByte r
    let g' ← channelByte g
    let b' ← channelByte b
    let a' ← channelByte a
    .ok [instrPins (.dec r' g' b' a')]
  | .nop => .ok [instrPins .nop]
  | .reset => .ok [resetPins]
  | .decw digits value =>
    if packedOk digits && decide (value < 2 ^ 32) then .ok [instrPins (decwInstr (BitVec.ofNat 32 value))]
    else .error .packedDigits
  | .nops n => if idleCountOk n then .ok (List.replicate n (instrPins .nop)) else .error .idleCount

/-! ### Text -/

/-- A space between words of a line. -/
def isBlank (c : Char) : Bool := c == ' ' || c == '\t' || c == '\r'

/-- A text cut at every `c`. -/
def splitAtChar (c : Char) : List Char → List (List Char)
  | [] => [[]]
  | x :: xs =>
    if x == c then [] :: splitAtChar c xs
    else
      match splitAtChar c xs with
      | [] => [[x]]
      | w :: ws => (x :: w) :: ws

/-- A text without the blanks around it. -/
def trimBlanks (cs : List Char) : List Char := ((cs.dropWhile isBlank).reverse.dropWhile isBlank).reverse

/-- A decimal digit. -/
def decimalDigit (c : Char) : Option Nat :=
  if 48 ≤ c.toNat ∧ c.toNat ≤ 57 then some (c.toNat - 48) else none

/-- A hexadecimal digit, in capitals or not. -/
def hexDigit (c : Char) : Option Nat :=
  if 65 ≤ c.toNat ∧ c.toNat ≤ 70 then some (c.toNat - 55)
  else if 97 ≤ c.toNat ∧ c.toNat ≤ 102 then some (c.toNat - 87)
  else decimalDigit c

/-- The number a text of digits spells after `acc`; no number when a character is no digit. -/
def readDigits (digit : Char → Option Nat) (base : Nat) : List Char → Nat → Option Nat
  | [], acc => some acc
  | c :: cs, acc =>
    match digit c with
    | some d => readDigits digit base cs (acc * base + d)
    | none => none

/-- A number of at least one digit. -/
def readNumber (digit : Char → Option Nat) (base : Nat) (cs : List Char) : Option Nat :=
  if cs.isEmpty then none else readDigits digit base cs 0

/-- The exponent of a decimal literal: digits with an optional sign. -/
def readExponent : List Char → Option Int
  | '-' :: cs => (readNumber decimalDigit 10 cs).map fun n => -(n : Int)
  | '+' :: cs => (readNumber decimalDigit 10 cs).map Int.ofNat
  | cs => (readNumber decimalDigit 10 cs).map Int.ofNat

/-- A decimal literal without its sign: digits, then perhaps a point and digits, then perhaps `e` and an exponent. -/
def readDecimal (negative : Bool) (cs : List Char) : Option ScalarLit := do
  let (mantissa, exp) ←
    match splitAtChar 'e' cs with
    | [m] => some (m, (0 : Int))
    | [m, x] => (readExponent x).map fun e => (m, e)
    | _ => none
  match splitAtChar '.' mantissa with
  | [i] => do
    let n ← readNumber decimalDigit 10 i
    some (.decimal negative n exp)
  | [i, fr] => do
    let n ← readNumber decimalDigit 10 i
    let _ ← readNumber decimalDigit 10 fr
    let whole ← readDigits decimalDigit 10 fr n
    some (.decimal negative whole (exp - fr.length))
  | _ => none

/-- A scalar literal (R72). -/
def readScalar (cs : List Char) : Option ScalarLit :=
  if cs == "nan".toList then some .nan
  else if cs == "inf".toList then some .inf
  else if cs == "-inf".toList then some .negInf
  else
    match cs with
    | '0' :: 'x' :: hs => (readNumber hexDigit 16 hs).map fun v => .hex hs.length v
    | '-' :: rest => readDecimal true rest
    | rest => readDecimal false rest

/-- A channel literal (R72). -/
def readChannel (cs : List Char) : Option ChannelLit :=
  match cs with
  | '0' :: 'x' :: hs => (readNumber hexDigit 16 hs).map fun v => .hex hs.length v
  | rest => (readNumber decimalDigit 10 rest).map .decimal

/-- A mnemonic and its operands as a statement (R71, R73). -/
def readStmt (mnemonic : List Char) (operands : List (List Char)) : Option Stmt :=
  if mnemonic == "enc".toList then
    match operands with
    | [f] => (readScalar f).map .enc
    | _ => none
  else if mnemonic == "dec".toList then
    match operands with
    | [r, g, b, a] => do
      let r' ← readChannel r
      let g' ← readChannel g
      let b' ← readChannel b
      let a' ← readChannel a
      some (.dec r' g' b' a')
    | _ => none
  else if mnemonic == "nop".toList then
    match operands with
    | [] => some .nop
    | [n] => (readNumber decimalDigit 10 n).map .nops
    | _ => none
  else if mnemonic == "reset".toList then
    match operands with
    | [] => some .reset
    | _ => none
  else if mnemonic == "decw".toList then
    match operands with
    | ['0' :: 'x' :: hs] => (readNumber hexDigit 16 hs).map fun v => .decw hs.length v
    | _ => none
  else none

/-- A line without its comment and the blanks around it (R71). -/
def lineText (cs : List Char) : List Char := trimBlanks (cs.takeWhile fun c => c != ';')

/-- The operands of a line: what stands after the mnemonic, cut at commas (R71). -/
def lineOperands (cs : List Char) : List (List Char) :=
  let rest := trimBlanks (cs.dropWhile fun c => !isBlank c)
  if rest.isEmpty then [] else (splitAtChar ',' rest).map trimBlanks

/-- The cycles of a line; a blank line or a comment takes none (R71). -/
def lineCycles (cs : List Char) : Except AsmReason (List Pins) :=
  let text := lineText cs
  if text.isEmpty then .ok []
  else
    match readStmt (text.takeWhile fun c => !isBlank c) (lineOperands text) with
    | some s => stmtCycles s
    | none => .error .spelling

/-- The cycles of lines numbered from `n` on. DESIGN CHOICE (log entry 17): the first refused line refuses the whole
program, by its number. R72 says only that the line is named and that refused lines produce no request word, and leaves
open what the other lines yield. -/
def linesCycles : Nat → List (List Char) → Except AsmError (List Pins)
  | _, [] => .ok []
  | n, l :: ls =>
    match lineCycles l with
    | .error reason => .error { line := n, reason := reason }
    | .ok ps =>
      match linesCycles (n + 1) ls with
      | .error e => .error e
      | .ok rest => .ok (ps ++ rest)

/-- The cycles of a program's text (R71), or its first refused line (log entry 17). -/
def assemble (text : String) : Except AsmError (List Pins) := linesCycles 1 (splitAtChar '\n' text.toList)

end Sys2Proof.Machine
end

