-- ==== Sys2Proof/Machine/ClosedForm.lean ====
section
/-! DEFINITION. The closed forms of the two operations on bit patterns (spec/40_encoder.md R86, R87; spec/41_decoder.md
R106). The machine runs R83 and R103; that these agree with them is stated in Certificates/Slice0/Obligations.lean. -/

namespace Sys2Proof.Machine

/-- N_MAX, the largest N of ENC (R87). -/
def nMax : Word32 := 0xFFFFFE52#32

/-- ENC_bits (R86), line by line. -/
def encBits (f : F64) : Word32 × Bit :=
  if exponentOf f = 2047 ∧ fractionOf f ≠ 0 then (0x00000000#32, 1#1)
  else if signOf f = 1#1 then (0x00000000#32, 0#1)
  else if 0x3FEFFFFFCA501ACB < f.toNat then (0xFFFFFE52#32, 0#1)
  else if exponentOf f = 0 then (0x00000000#32, 0#1)
  else if 53 ≤ 1043 - exponentOf f then (0x00000000#32, 0#1)
  else (BitVec.ofNat 32 ((2 ^ 52 + fractionOf f) >>> (1043 - exponentOf f)), 0#1)

/-- DEC_bits (R106). `Nat.log2` is the index of the most significant 1 bit. -/
def decBits (q : Word32) : F64 :=
  if q = 0#32 then 0x0000000000000000#64
  else
    let p := q.toNat.log2
    0#1 ++ BitVec.ofNat 11 (991 + p) ++ BitVec.ofNat 52 (q.toNat <<< (52 - p))

end Sys2Proof.Machine
end

