-- ==== Sys2Proof/Machine/System.lean ====
section
/-! DEFINITION. Several copies of the block in one system (spec/60_exceptions.md R150; spec/20_memory.md R54): each has its
own state and its own host schedule, and a step is a step of one of them (log entry 12). -/

namespace Sys2Proof.Machine

/-- The copies, by their place. The block has no identifier of its own (R150). -/
structure System where
  copies : List State
  deriving DecidableEq, Repr

/-- One step of the copy at place `k`; there may be no such copy. -/
def stepCopy (k : Nat) (y : System) : Option (Host.Outcome System Fault Refusal) :=
  match y.copies[k]? with
  | none => none
  | some s =>
    match step s with
    | .next t => some (.next { copies := y.copies.set k t })
    | .fault r => some (.fault r)
    | .refused r => some (.refused r)

end Sys2Proof.Machine
end

