-- ==== Sys2Proof/Safety.lean ====
section
/-! DEFINITION. Runs, observations, clean runs and the invariant of the state, in the terms claims use
(spec/44_interface_cycle.md R123, R129; spec/60_exceptions.md R141). -/

namespace Sys2Proof.Machine

/-- The states s_1, s_2, … that follow `s` in at most `k` steps, up to the first step there is none of. -/
def trace : Nat → State → List State
  | 0, _ => []
  | k + 1, s =>
    match step s with
    | .next t => t :: trace k t
    | _ => []

/-- The response registers after each of the next `k` steps. Of the steps of a run this is its observation (R129,
`runObservation`). -/
def observation (k : Nat) (s : State) : List (Option Resp) := (trace k s).map outputPorts

/-- The event is a clock cycle. -/
def isCycle : HostEvent → Bool
  | .cycle _ => true
  | .clockStopped => false
  | .powerLoss => false

/-- The host's events are those of a run: a finite sequence of CYCLES, no other event among them, that starts with a reset
cycle (R129, R175). -/
def isRun : List HostEvent → Bool
  | .cycle p :: rest => p.rst == 1#1 && rest.all isCycle
  | _ => false

/-- The observation of the run that drives the events `es` from `s` (R129): the registers s_1, s_2, …, one entry for each
cycle, to the last cycle driven. Events that are no run have none. -/
def runObservation (es : List HostEvent) (s : State) : Option (List (Option Resp)) :=
  if isRun es then some (observation es.length { s with host := es }) else none

/-- No state among the next `k` shows RESP_VALID = 1 and RESP_INVALID = 1 together. Of the steps of a run this is that the
run is clean (R129). -/
def cleanRun (k : Nat) (s : State) : Bool := (trace k s).all fun t => !stateShowsFault t

/-- The state after `k` steps, when there are that many. -/
def stateAfter : Nat → State → Option State
  | 0, s => some s
  | k + 1, s =>
    match step s with
    | .next t => stateAfter k t
    | _ => none

/-- The next state of an outcome, for claims and tests. -/
def nextState? (o : Host.Outcome State Fault Refusal) : Option State :=
  match o with
  | .next s => some s
  | _ => none

/-- The refusal of an outcome, for claims and tests. -/
def refusal? (o : Host.Outcome State Fault Refusal) : Option Refusal :=
  match o with
  | .refused r => some r
  | _ => none

/-- The registers the response to a request leaves, as R121 writes them. -/
def responseTo (q : Request) : Resp :=
  if q.op = 0#1 then
    { valid := 1#1, op := 0#1, data := zext64 (encFn q.operand).1, invalid := (encFn q.operand).2 }
  else
    { valid := 1#1, op := 1#1, data := decFn (q.operand.extractLsb' 0 32), invalid := 0#1 }

/-- What every response of this block looks like: an ENC response is a zero-extended N of at most N_MAX (R65, R87); a DEC
response is +0.0 or a positive normal number with exponent field 991 to 1022 and at most 32 significant bits (R109, R106);
RESP_INVALID = 1 only with an ENC response of zero data (R27, R81). -/
def respOk (r : Resp) : Bool :=
  (r.op != 0#1 || decide (r.data.toNat ≤ nMax.toNat)) &&
  (r.op != 1#1 || r.data == 0#64 ||
    (signOf r.data == 0#1 && decide (991 ≤ exponentOf r.data) && decide (exponentOf r.data ≤ 1022) &&
      r.data.extractLsb' 0 21 == 0#21)) &&
  (r.invalid != 1#1 || (r.op == 0#1 && r.data == 0#64))

/-- The invariant of the state: the registers, if the block has been reset, hold a response of this block, and a state
that shows the fault carries the mark (R141). -/
def stateInv (s : State) : Bool :=
  (match s.resp with
    | some r => respOk r
    | none => true) &&
  (!stateShowsFault s || s.faultMark == some .respInvalid)

end Sys2Proof.Machine
end

