-- ==== Sys2Proof/Certificates/Slice0/Obligations.lean ====
section
/-! DEFINITION. The statements for the provers, from the numbered rules of spec/. Where a statement rests on a choice of the
model its docstring names the log entry. -/

open Sys2Proof Sys2Proof.Machine

/-! ### Encoding -/

/-- Decoding the request word of a well-formed instruction gives the instruction back, with every operand. The request word of each statement (R74) decodes to that statement (R61, R62, R68). -/
def Obligations.DecodeOfEncodeGivesTheInstructionBack : Prop :=
  ∀ i : Instr, i.wellFormed = true → decode (encode i) = i

/-- Encoding what a word decodes to gives the word with its ignored bits cleared, and nothing else changed (log entry 10). The ignored bits are exactly those R62 and R63 name; every other bit of the word is in the instruction.
That the decoder drops them and the encoder writes them as zeros, as R74 does for each statement, is log entry 10 (DEDUCED). -/
def Obligations.EncodeOfDecodeClearsTheIgnoredBits : Prop :=
  ∀ w : RequestWord, encode (decode w) = w &&& meaningfulBits (decode w)

/-- Each of the 2^66 request words matches exactly one row of the opcode map, by its mask and by its fields. R68, the whole opcode map. -/
def Obligations.EveryRequestWordMatchesExactlyItsRow : Prop :=
  ∀ w : RequestWord,
    matchingRows w = [mnemonicOf (decode w)] ∧ w &&& rowMask (decode w) = rowMatch (decode w) ∧
    (w.getLsbD 65 = false → decode w = .nop) ∧
    (w.getLsbD 65 = true → w.getLsbD 64 = false → decode w = .enc (w.extractLsb' 0 64)) ∧
    (w.getLsbD 65 = true → w.getLsbD 64 = true → decode w =
      .dec (w.extractLsb' 24 8) (w.extractLsb' 16 8) (w.extractLsb' 8 8) (w.extractLsb' 0 8))

/-- The request words of R74 and of programs P1 to P4 encode and decode as they stand there; T2's and T3's words decode so. The words of R74, of P1 to P4, and of T2 and T3. -/
def Obligations.SampleRequestWordsAreThoseOfTheSpec : Prop :=
  (∀ x ∈ ([(.nop, 0x00000000000000000#66), (.enc 0x3FE0000000000000#64, 0x23FE0000000000000#66),
      (.dec 128#8 0#8 0#8 0#8, 0x30000000080000000#66),
      (.enc 0x3FB999999999999A#64, 0x23FB999999999999A#66), (.dec 25#8 153#8 153#8 153#8, 0x30000000019999999#66),
      (.enc 0x3FF0000000000000#64, 0x23FF0000000000000#66), (.enc 0xFFF0000000000000#64, 0x2FFF0000000000000#66),
      (.enc 0x7FF8000000000000#64, 0x27FF8000000000000#66), (.enc 0x3DF0000000000000#64, 0x23DF0000000000000#66),
      (.dec 255#8 255#8 255#8 255#8, 0x300000000FFFFFFFF#66), (.enc 0x3FEFFFFFFFE00000#64, 0x23FEFFFFFFFE00000#66),
      (.dec 0#8 0#8 0#8 1#8, 0x30000000000000001#66)] ++
     [(.enc 0x3FDFFFFFFFFFFFFF#64, 0x23FDFFFFFFFFFFFFF#66), (.dec 127#8 255#8 255#8 255#8, 0x3000000007FFFFFFF#66),
      (.enc 0x3FE8000000000000#64, 0x23FE8000000000000#66), (.dec 192#8 0#8 0#8 0#8, 0x300000000C0000000#66)] :
      List (Instr × RequestWord)), encode x.1 = x.2 ∧ decode x.2 = x.1) ∧
  decode 0x3FFFFFFFF80000000#66 = .dec 128#8 0#8 0#8 0#8 ∧
  decode 0x1FFFFFFFFFFFFFFFF#66 = .nop

/-- The 67-bit response word holds resp_valid, resp_op, resp_invalid and resp_data at the bits R64 gives. R64. -/
def Obligations.ResponseWordHoldsTheFourRegisters : Prop :=
  ∀ r : Resp, (responseWord r).extractLsb' 66 1 = r.valid ∧ (responseWord r).extractLsb' 65 1 = r.op ∧
    (responseWord r).extractLsb' 64 1 = r.invalid ∧ (responseWord r).extractLsb' 0 64 = r.data

/-- A quadruple and its packed value are two spellings of the same thing: pack and unpack undo each other. R10. -/
def Obligations.PackAndUnpackAreInverse : Prop :=
  (∀ r g b a : Byte, unpack (pack r g b a) = ⟨r, g, b, a⟩ ∧
    (pack r g b a).toNat = r.toNat * 2 ^ 24 + g.toNat * 2 ^ 16 + b.toNat * 2 ^ 8 + a.toNat) ∧
  ∀ n : Word32, pack (unpack n).r (unpack n).g (unpack n).b (unpack n).a = n ∧
    unpack n = ⟨n.extractLsb' 24 8, n.extractLsb' 16 8, n.extractLsb' 8 8, n.extractLsb' 0 8⟩

/-- A pixel's bytes are r, g, b, a at byte offsets 0 to 3, and the four bytes give the quadruple back. R41. -/
def Obligations.PixelBytesAreMostSignificantDigitFirst : Prop :=
  (∀ r g b a : Byte, pixelBytes (pack r g b a) = [r, g, b, a]) ∧
  ∀ n : Word32, pixelOfBytes (pixelBytes n) = some n

/-! ### Binary64 -/

/-- fl64 gives the nearest binary64 value, the even one of two as near, for all that rounds to a finite number. The first sentence of R7, on the numbers that round to a finite one; what lies beyond is log entry 8 (PRESUMED) and not stated here. -/
def Obligations.RoundingIsToTheNearestTiesToEven : Prop :=
  ∀ e : ℚ, |e| < 2 ^ 1024 - 2 ^ 970 →
    ∃ x : ℚ, valueOf (fl64 e) = some (.real x) ∧
      ∀ (g : F64) (y : ℚ), valueOf g = some (.real y) →
        |x - e| ≤ |y - e| ∧ (|x - e| = |y - e| → x ≠ y → fractionOf (fl64 e) % 2 = 0)

/-- For two patterns with sign 0 that are no NaN, the order of their values is the unsigned order of their bits. R6 on the order of patterns. -/
def Obligations.OrderOfNonNegativePatternsIsTheirBitOrder : Prop :=
  (∀ a b : F64, isNaN a = false → isNaN b = false → signOf a = 0#1 → signOf b = 0#1 →
    (valueLt a b = true ↔ a.toNat < b.toNat)) ∧
  valueLt 0x8000000000000000#64 0x0000000000000000#64 = false ∧
  valueLt 0x0000000000000000#64 0x8000000000000000#64 = false

/-- EPS is fl64(1e-7), CLAMP_HI is 1 - EPS in binary64, with the exact values of R9. R9. -/
def Obligations.ClampConstantsAreRoundedFromTheDecimalLiteral : Prop :=
  fl64 (1 / 10 ^ 7) = Config.eps ∧ valueOf Config.eps = some (.real (944473296573929 / 2 ^ 73)) ∧
  fl64 (1 - 944473296573929 / 2 ^ 73) = Config.clampHi ∧ sub64 (to64 1) Config.eps = Config.clampHi ∧
  valueOf Config.clampHi = some (.real (9007198354021067 / 2 ^ 53)) ∧
  (1 - 9007198354021067 / 2 ^ 53 : ℚ) = 900719925 / 2 ^ 53 ∧
  |(900719925 / 2 ^ 53 : ℚ) - 9999999994736442 / 10 ^ 23| < 1 / 10 ^ 22 ∧
  Config.eps = 0x3E7AD7F29ABCAF48#64 ∧ Config.clampHi = 0x3FEFFFFFCA501ACB#64

/-! ### ENC -/

/-- The clamp gives +0.0 below 0, CLAMP_HI above CLAMP_HI, the operand itself otherwise, and always lands in [0, CLAMP_HI]. R82, with the closed interval of 90_conflicts.md C1. -/
def Obligations.ClampIsIntoTheClosedInterval : Prop :=
  (∀ f : F64, isNaN f = false →
    (valueLt f 0x0000000000000000#64 = true → clamp f = 0x0000000000000000#64) ∧
    (valueLt Config.clampHi f = true → clamp f = Config.clampHi) ∧
    (valueLt f 0x0000000000000000#64 = false → valueLt Config.clampHi f = false → clamp f = f) ∧
    ∃ x : ℚ, valueOf (clamp f) = some (.real x) ∧ 0 ≤ x ∧ x ≤ 9007198354021067 / 2 ^ 53) ∧
  clamp 0xFFF0000000000000#64 = 0x0000000000000000#64 ∧ clamp 0x7FF0000000000000#64 = Config.clampHi ∧
  clamp 0x3FF0000000000000#64 = Config.clampHi ∧ clamp Config.clampHi = Config.clampHi ∧
  clamp 0x8000000000000000#64 = 0x8000000000000000#64 ∧
  encFn 0x8000000000000000#64 = encFn 0x0000000000000000#64

/-- Each scale-and-floor step of ENC is exact: the digit is the floor of 256·v in [0, 255], the remainder the exact rest. R84 and R85, for one of the four steps: each step's remainder is the next step's operand. -/
def Obligations.DigitStepIsExact : Prop :=
  ∀ (v : F64) (x : ℚ), valueOf v = some (.real x) → 0 ≤ x → x < 1 →
    valueOf (scaled v) = some (.real (256 * x)) ∧ 256 * x < 256 ∧
    ((digitOf (scaled v)).toNat : Int) = ⌊256 * x⌋ ∧
    valueOf (remainderOf (scaled v)) = some (.real (256 * x - ⌊256 * x⌋)) ∧
    0 ≤ 256 * x - ⌊256 * x⌋ ∧ 256 * x - ⌊256 * x⌋ < 1

/-- With any clamp bound strictly between 0 and 1, ENC is floor(val(clamp(f))·2^32). R86's first sentence in the generality R4 grants. -/
def Obligations.EncIsTheFloorForEveryClampBound : Prop :=
  ∀ (hi : F64) (h : ℚ), valueOf hi = some (.real h) → 0 < h → h < 1 →
    ∀ f : F64, isNaN f = false →
      ∃ x : ℚ, valueOf (clampAt hi f) = some (.real x) ∧ 0 ≤ x ∧ x ≤ h ∧
        encFnAt hi f = (BitVec.ofInt 32 ⌊x * 2 ^ 32⌋, 0#1)

/-- ENC_fn, four digits in binary64 arithmetic, equals floor(val(clamp(f))·2^32) and equals ENC_bits on the bit pattern. R86, both closed forms. -/
def Obligations.EncAgreesWithItsClosedForms : Prop :=
  ∀ f : F64, encFn f = encBits f ∧
    (isNaN f = false → ∃ x : ℚ, valueOf (clamp f) = some (.real x) ∧
      encFn f = (BitVec.ofInt 32 ⌊x * 2 ^ 32⌋, 0#1) ∧ 0 ≤ ⌊x * 2 ^ 32⌋ ∧ ⌊x * 2 ^ 32⌋ < 2 ^ 32)

/-- ENC gives at most N_MAX = 0xFFFFFE52 = (255, 255, 254, 82), and gives it at and above CLAMP_HI, for 1.0 and 1.0 - 1e-7 alike. R87. -/
def Obligations.EncNeverExceedsItsMaximum : Prop :=
  (∀ f : F64, (encFn f).1.toNat ≤ nMax.toNat) ∧
  (⌊(9007198354021067 / 2 ^ 53 : ℚ) * 2 ^ 32⌋ = 4294966866) ∧ nMax.toNat = 4294966866 ∧
  valueOf Config.clampHi = some (.real (9007198354021067 / 2 ^ 53)) ∧
  unpack nMax = ⟨255#8, 255#8, 254#8, 82#8⟩ ∧
  (∀ f : F64, isNaN f = false → valueLt f Config.clampHi = false → encFn f = (nMax, 0#1)) ∧
  encFn 0x3FF0000000000000#64 = (pack 255#8 255#8 254#8 82#8, 0#1) ∧
  encFn (sub64 (to64 1) (fl64 (1 / 10 ^ 7))) = (pack 255#8 255#8 254#8 82#8, 0#1) ∧
  ∀ f : F64, (encFn f).1 ≠ pack 255#8 255#8 255#8 255#8

/-- Decoding an encoded value never overshoots and errs by less than 2^-32; above CLAMP_HI the error is val(f) - N_MAX·2^-32. R88, with the step of 90_conflicts.md C2. -/
def Obligations.RoundTripErrorIsBelowOneQuantizationStep : Prop :=
  (∀ (f : F64) (x : ℚ), valueOf f = some (.real x) → 0 ≤ x → x ≤ 9007198354021067 / 2 ^ 53 →
    ∃ d : ℚ, valueOf (decFn (encFn f).1) = some (.real d) ∧ d = ((encFn f).1.toNat : ℚ) / 2 ^ 32 ∧
      0 ≤ x - d ∧ x - d < 1 / 2 ^ 32) ∧
  ∀ (f : F64) (x : ℚ), valueOf f = some (.real x) → 9007198354021067 / 2 ^ 53 < x → x < 1 →
    ∃ d : ℚ, valueOf (decFn (encFn f).1) = some (.real d) ∧ d = (nMax.toNat : ℚ) / 2 ^ 32 ∧
      x - d < 1 - (nMax.toNat : ℚ) / 2 ^ 32 ∧ 1 - (nMax.toNat : ℚ) / 2 ^ 32 = 430 / 2 ^ 32

/-- A larger scalar never encodes to a smaller N, nor to a smaller first channel; the later channels may fall. R89 with its example. -/
def Obligations.EncIsMonotone : Prop :=
  (∀ f₁ f₂ : F64, isNaN f₁ = false → isNaN f₂ = false → valueLt f₂ f₁ = false →
    (encFn f₁).1.toNat ≤ (encFn f₂).1.toNat ∧
    (unpack (encFn f₁).1).r.toNat ≤ (unpack (encFn f₂).1).r.toNat) ∧
  valueOf 0x3F6FFFFFFFFFFFFE#64 = some (.real (1 / 256 - 1 / 2 ^ 60)) ∧
  unpack (encFn 0x3F6FFFFFFFFFFFFE#64).1 = ⟨0#8, 255#8, 255#8, 255#8⟩ ∧
  valueOf 0x3F70000000000000#64 = some (.real (1 / 256)) ∧
  unpack (encFn 0x3F70000000000000#64).1 = ⟨1#8, 0#8, 0#8, 0#8⟩

/-- Encoding a decoded quadruple gives it back up to N_MAX, and N_MAX above it. R90. -/
def Obligations.EncUndoesDecUpToItsMaximum : Prop :=
  (∀ n : Word32, encFn (decFn n) = (BitVec.ofNat 32 (min n.toNat nMax.toNat), 0#1)) ∧
  nMax + 1#32 = 0xFFFFFE53#32 ∧ 0xFFFFFFFF - nMax.toNat = 429

/-- Up to N_MAX every value of one quantization step encodes to the same N, and nothing encodes above N_MAX (log entry 14). R91. Its sentence on the steps holds for the steps ENC reaches: above N_MAX the clamp of R82 decides (log entry 14). -/
def Obligations.EncIsNeitherInjectiveNorOnto : Prop :=
  (∀ (f : F64) (x : ℚ) (k : Word32), valueOf f = some (.real x) → k.toNat ≤ nMax.toNat →
    (k.toNat : ℚ) / 2 ^ 32 ≤ x → x < ((k.toNat : ℚ) + 1) / 2 ^ 32 → encFn f = (k, 0#1)) ∧
  (∀ (n : Word32) (f : F64), nMax.toNat < n.toNat → (encFn f).1 ≠ n) ∧
  ∃ f₁ f₂ : F64, f₁ ≠ f₂ ∧ valueOf f₁ ≠ valueOf f₂ ∧ encFn f₁ = encFn f₂

/-- 0.49999999999999994 encodes to (127, 255, 255, 255), where a rounded first digit would be 128. The counterexample of R92. -/
def Obligations.EncDigitsAreFlooredNotRounded : Prop :=
  encFn 0x3FDFFFFFFFFFFFFF#64 = (pack 127#8 255#8 255#8 255#8, 0#1) ∧
  encFn 0x3FDFFFFFFFFFFFFF#64 ≠ (pack 128#8 0#8 0#8 0#8, 0#1) ∧
  valueOf 0x3FDFFFFFFFFFFFFF#64 = some (.real (1 / 2 - 1 / 2 ^ 54)) ∧
  roundHalfEven ((1 / 2 - 1 / 2 ^ 54) * 256) = 128

/-- The corner cases of enc: below 2^-32 and negative to 0, 2^-32 to 1, CLAMP_HI and above to N_MAX, a NaN to 0 with the flag. The corner cases and the example's digits of R80. Infinities follow R82 (log entry 7). -/
def Obligations.EncCornerCases : Prop :=
  (∀ (f : F64) (x : ℚ), valueOf f = some (.real x) → x < 1 / 2 ^ 32 → encFn f = (0x00000000#32, 0#1)) ∧
  encFn 0xFFF0000000000000#64 = (0x00000000#32, 0#1) ∧
  valueOf 0x3DF0000000000000#64 = some (.real (1 / 2 ^ 32)) ∧
  encFn 0x3DF0000000000000#64 = (0x00000001#32, 0#1) ∧
  (∀ f : F64, isNaN f = false → valueLt f Config.clampHi = false → encFn f = (0xFFFFFE52#32, 0#1)) ∧
  encFn 0x7FF0000000000000#64 = (0xFFFFFE52#32, 0#1) ∧ encFn 0x3FF0000000000000#64 = (0xFFFFFE52#32, 0#1) ∧
  (∀ f : F64, isNaN f = true → encFn f = (0x00000000#32, 1#1)) ∧
  encFn 0x3FE0000000000000#64 = (pack 128#8 0#8 0#8 0#8, 0#1)

/-- enc of any NaN completes with RESP_DATA = 0 and RESP_INVALID = 1; the flag is 1 for a NaN only. R81 and the second sentence of R141 on completion. -/
def Obligations.NaNOperandCompletesWithTheFlag : Prop :=
  (∀ (f : F64) (s : State) (r : Resp), isNaN f = true → s.resp = some r →
    ∃ t, exec (.enc f) s = .next t ∧
      t.resp = some { valid := 1#1, op := 0#1, data := 0x0000000000000000#64, invalid := 1#1 } ∧
      stateShowsFault t = true) ∧
  (∀ f : F64, (encFn f).2 = 1#1 ↔ isNaN f = true)

/-! ### DEC -/

/-- DEC is exact: each term, the accumulator after each addition, and the result N·2^-32; nothing rounds. R105 and R104. -/
def Obligations.DecIsExact : Prop :=
  (∀ q : Word32,
    valueOf (accZero q) = some (.real ((q.toNat / 2 ^ 24 : ℕ) : ℚ)) ∧
    valueOf (accOne q) = some (.real (((q.toNat / 2 ^ 16 : ℕ) : ℚ) / 2 ^ 8)) ∧ q.toNat / 2 ^ 16 < 2 ^ 16 ∧
    valueOf (accTwo q) = some (.real (((q.toNat / 2 ^ 8 : ℕ) : ℚ) / 2 ^ 16)) ∧ q.toNat / 2 ^ 8 < 2 ^ 24 ∧
    valueOf (accThree q) = some (.real ((q.toNat : ℚ) / 2 ^ 24)) ∧ q.toNat < 2 ^ 32 ∧
    valueOf (decFn q) = some (.real ((q.toNat : ℚ) / 2 ^ 32))) ∧
  valueOf (to64 256) = some (.real 256) ∧ valueOf (to64 65536) = some (.real 65536) ∧
  valueOf (to64 16777216) = some (.real 16777216) ∧
  ∀ d : Byte, valueOf (weighted d 256) = some (.real ((d.toNat : ℚ) / 2 ^ 8)) ∧
    valueOf (weighted d 65536) = some (.real ((d.toNat : ℚ) / 2 ^ 16)) ∧
    valueOf (weighted d 16777216) = some (.real ((d.toNat : ℚ) / 2 ^ 24))

/-- DEC_fn, the accumulator in binary64 arithmetic, equals DEC_bits on the bit pattern. R106. -/
def Obligations.DecAgreesWithItsClosedForm : Prop :=
  ∀ q : Word32, decFn q = decBits q ∧
    (q ≠ 0#32 → q.toNat.log2 ≤ 31 ∧ exponentOf (decBits q) = 991 + q.toNat.log2 ∧
      valueOf (decBits q) = some (.real (2 ^ ((q.toNat.log2 : Int) - 32) * ((q.toNat : ℚ) / 2 ^ q.toNat.log2))))

/-- DEC gives +0.0 for 0 and else a positive normal number k·2^-32 below 1, at most 0x3FEFFFFFFFE00000. R108 and R109. -/
def Obligations.DecResultIsZeroOrPositiveNormalBelowOne : Prop :=
  (∀ q : Word32, ∃ x : ℚ, valueOf (decFn q) = some (.real x) ∧ x = (q.toNat : ℚ) / 2 ^ 32 ∧ 0 ≤ x ∧ x < 1 ∧
    x ≤ (2 ^ 32 - 1) / 2 ^ 32) ∧
  decFn 0x00000000#32 = 0x0000000000000000#64 ∧
  (∀ q : Word32, q ≠ 0#32 → signOf (decFn q) = 0#1 ∧ 991 ≤ exponentOf (decFn q) ∧ exponentOf (decFn q) ≤ 1022) ∧
  decFn 0xFFFFFFFF#32 = 0x3FEFFFFFFFE00000#64 ∧
  valueOf 0x3FEFFFFFFFE00000#64 = some (.real ((2 ^ 32 - 1) / 2 ^ 32)) ∧
  ((2 ^ 32 - 1) / 2 ^ 32 : ℚ) = 99999999976716935634613037109375 / 10 ^ 32 ∧
  (999 / 1000 : ℚ) < (2 ^ 32 - 1) / 2 ^ 32

/-- DEC is strictly increasing in the packed value, hence in each channel, and no two quadruples decode alike. R110. -/
def Obligations.DecIsStrictlyIncreasingAndInjective : Prop :=
  (∀ q₁ q₂ : Word32, q₁.toNat < q₂.toNat → valueLt (decFn q₁) (decFn q₂) = true) ∧
  (∀ c d x y z : Byte, c.toNat < d.toNat →
    valueLt (decFn (pack c x y z)) (decFn (pack d x y z)) = true ∧
    valueLt (decFn (pack x c y z)) (decFn (pack x d y z)) = true ∧
    valueLt (decFn (pack x y c z)) (decFn (pack x y d z)) = true ∧
    valueLt (decFn (pack x y z c)) (decFn (pack x y z d)) = true) ∧
  ∀ q₁ q₂ : Word32, decFn q₁ = decFn q₂ → q₁ = q₂

/-- Decoding an encoded value gives the clamped value truncated to a multiple of 2^-32. R111. -/
def Obligations.DecodingAnEncodedValueNeverOvershoots : Prop :=
  ∀ f : F64, isNaN f = false → ∃ x : ℚ, valueOf (clamp f) = some (.real x) ∧
    valueOf (decFn (encFn f).1) = some (.real ((⌊x * 2 ^ 32⌋ : ℚ) / 2 ^ 32)) ∧ (⌊x * 2 ^ 32⌋ : ℚ) / 2 ^ 32 ≤ x

/-! ### Instructions: completion, result, frame -/

/-- nop completes on every block that has been reset: RESP_VALID falls to 0, all else is unchanged (mark: log entry 4). R122, pseudocode and flags. That the mark is unchanged is the model's (log entry 4). -/
def Obligations.NopClearsValidAndHoldsTheRest : Prop :=
  ∀ (s : State) (r : Resp), s.resp = some r →
    exec .nop s = .next { s with resp := some { r with valid := 0#1 } }

/-- enc completes on every block that has been reset, and writes (1, 0, zext_64(N), inv) with (N, inv) = ENC_fn(f). R80, pseudocode and flags. -/
def Obligations.EncWritesItsResponse : Prop :=
  ∀ (f : F64) (s : State) (r : Resp), s.resp = some r →
    ∃ t, exec (.enc f) s = .next t ∧
      t.resp = some { valid := 1#1, op := 0#1, data := zext64 (encFn f).1, invalid := if isNaN f then 1#1 else 0#1 } ∧
      t.host = s.host

/-- dec completes on every block that has been reset, and writes (1, 1, DEC_fn(Q), 0) (mark: log entry 4). R100, pseudocode and flags. That the mark is unchanged is the model's (log entry 4). -/
def Obligations.DecWritesItsResponse : Prop :=
  ∀ (r g b a : Byte) (s : State) (old : Resp), s.resp = some old →
    exec (.dec r g b a) s =
      .next { s with resp := some { valid := 1#1, op := 1#1, data := decFn (pack r g b a), invalid := 0#1 } }

/-- The corner cases of dec: zero, the smallest and the largest result, ENC's largest output, and 0.5. The corner cases and the example of R100. -/
def Obligations.DecCornerCases : Prop :=
  decFn (pack 0#8 0#8 0#8 0#8) = 0x0000000000000000#64 ∧
  decFn (pack 0#8 0#8 0#8 1#8) = 0x3DF0000000000000#64 ∧
  decFn (pack 255#8 255#8 255#8 255#8) = 0x3FEFFFFFFFE00000#64 ∧
  decFn (pack 255#8 255#8 254#8 82#8) = 0x3FEFFFFFCA400000#64 ∧
  decFn (pack 128#8 0#8 0#8 0#8) = 0x3FE0000000000000#64

/-- What an instruction leaves alone: the host's schedule; for nop all registers but RESP_VALID; the mark unless enc sees a NaN. R22 (only ENC writes the flag to 1), R46 and R122. -/
def Obligations.FrameOfEveryInstruction : Prop :=
  ∀ (i : Instr) (s t : State), exec i s = .next t →
    t.host = s.host ∧
    (i = .nop → t.faultMark = s.faultMark ∧ ∀ r, s.resp = some r →
      ∃ r', t.resp = some r' ∧ r'.op = r.op ∧ r'.data = r.data ∧ r'.invalid = r.invalid) ∧
    (∀ r g b a, i = .dec r g b a → t.faultMark = s.faultMark) ∧
    (∀ f, i = .enc f → isNaN f = false → t.faultMark = s.faultMark)

/-- The unreset block shows no output and refuses every instruction and every cycle but a reset cycle. R33. -/
def Obligations.UnresetBlockHasNoStepButAReset : Prop :=
  ∀ s : State, s.resp = none →
    (∀ i : Instr, exec i s = .refused .unreset) ∧ outputPorts s = none ∧
    (∀ (p : Pins) (rest : List HostEvent), p.rst = 0#1 →
      step { s with host := .cycle p :: rest } = .refused .unreset) ∧
    (∀ (p : Pins) (rest : List HostEvent), p.rst = 1#1 →
      ∃ t, step { s with host := .cycle p :: rest } = .next t ∧ t.resp = some Resp.reset)

/-! ### The step -/

/-- A cycle with rst = 0 runs exactly the instruction its request word decodes to. R121, the request's part. -/
def Obligations.StepRunsTheDecodedRequest : Prop :=
  ∀ (s : State) (p : Pins) (rest : List HostEvent), p.rst = 0#1 →
    step { s with host := .cycle p :: rest } = exec (decode (requestWord p.req)) { s with host := rest }

/-- The step is the step function of R121: reset first, then refusal when unreset, then nop, enc or dec by the request's fields. R121. -/
def Obligations.StepFollowsTheStepFunctionOfTheSpec : Prop :=
  ∀ (s : State) (p : Pins) (rest : List HostEvent),
    (p.rst = 1#1 → ∃ t, step { s with host := .cycle p :: rest } = .next t ∧
      t.resp = some { valid := 0#1, op := 0#1, data := 0x0000000000000000#64, invalid := 0#1 }) ∧
    (p.rst = 0#1 → s.resp = none → step { s with host := .cycle p :: rest } = .refused .unreset) ∧
    (p.rst = 0#1 → ∀ r, s.resp = some r → ∃ t, step { s with host := .cycle p :: rest } = .next t ∧
      t.resp = some
        (if p.req.valid = 0#1 then { r with valid := 0#1 }
         else if p.req.op = 0#1 then
          { valid := 1#1, op := 0#1, data := zext64 (encFn p.req.operand).1, invalid := (encFn p.req.operand).2 }
         else { valid := 1#1, op := 1#1, data := decFn (p.req.operand.setWidth 32), invalid := 0#1 }))

/-- RESP_VALID is 1 after a cycle with rst = 0 that carries a request, 0 after any other cycle; a stopped clock holds it (log entry 11). R24 for the cycles and the reset value. The clause on a stopped clock is R152, as an event of the schedule by log entry 11 (DESIGN CHOICE). -/
def Obligations.RespValidIsOneExactlyAfterARequest : Prop :=
  (∀ (s t : State) (p : Pins) (rest : List HostEvent), step { s with host := .cycle p :: rest } = .next t →
    ∃ r, t.resp = some r ∧ (r.valid = 1#1 ↔ p.rst = 0#1 ∧ p.req.valid = 1#1) ∧
      (r.valid = 0#1 ↔ ¬ (p.rst = 0#1 ∧ p.req.valid = 1#1))) ∧
  (∀ (s t : State) (rest : List HostEvent), step { s with host := .clockStopped :: rest } = .next t →
    t.resp = s.resp) ∧
  Resp.reset.valid = 0#1

/-- No step from any state ends in a fault: the block raises no exception. R140. -/
def Obligations.NoStepEndsInAFault : Prop :=
  (∀ (s : State) (e : Fault), step s ≠ .fault e) ∧ ∀ (i : Instr) (s : State) (e : Fault), exec i s ≠ .fault e

/-- An edge with rst = 1 gives the reset registers from any state, and drops a request of the same cycle. R171. -/
def Obligations.ResetGivesTheResetStateFromAnyState : Prop :=
  ∀ (s : State) (q : Request) (rest : List HostEvent),
    ∃ t, step { s with host := .cycle { rst := 1#1, req := q } :: rest } = .next t ∧
      t.resp = some { valid := 0#1, op := 0#1, data := 0x0000000000000000#64, invalid := 0#1 } ∧
      ∀ q' : Request, step { s with host := .cycle { rst := 1#1, req := q' } :: rest } = .next t

/-- While rst stays 1 the registers stay reset, and the first cycle with rst = 0 may carry a request that is answered next. R172. -/
def Obligations.OneResetCycleIsEnough : Prop :=
  ∀ (s : State) (ps : List Pins) (p : Pins) (rest : List HostEvent), ps ≠ [] → (∀ q ∈ ps, q.rst = 1#1) →
    p.rst = 0#1 → p.req.valid = 1#1 →
    observation (ps.length + 1) { s with host := ps.map .cycle ++ .cycle p :: rest } =
      ps.map (fun _ => some Resp.reset) ++ [some (responseTo p.req)]

/-- State.reset holds the reset value of each of the four response registers, and they read as (0,0,0,0) and as +0.0. The record of 10_state.md section 4; R26's reading of the reset data. -/
def Obligations.StateRightAfterResetHoldsTheResetValues : Prop :=
  State.reset.resp = some { valid := 0#1, op := 0#1, data := 0x0000000000000000#64, invalid := 0#1 } ∧
  Resp.reset.data = zext64 (pack 0#8 0#8 0#8 0#8) ∧ Resp.reset.data = decFn (pack 0#8 0#8 0#8 0#8) ∧
  stateShowsFault State.reset = false

/-- With req_valid = 0 the other request inputs have no effect, and with rst = 1 no request input has any. R125. -/
def Obligations.InputsThatAreNotSampledHaveNoEffect : Prop :=
  ∀ (s : State) (p p' : Pins) (rest : List HostEvent), p.rst = p'.rst →
    (p.rst = 1#1 ∨ (p.req.valid = 0#1 ∧ p'.req.valid = 0#1)) →
    step { s with host := .cycle p :: rest } = step { s with host := .cycle p' :: rest }

/-- A DEC request's operand bits 63:32 have no effect, and its channels are bits 31:24, 23:16, 15:8 and 7:0. R62 and R69. -/
def Obligations.DecIgnoresTheUpperOperandHalf : Prop :=
  (∀ (s : State) (rst : Bit) (x y : Word64) (rest : List HostEvent),
    x.extractLsb' 0 32 = y.extractLsb' 0 32 →
    step { s with host := .cycle { rst := rst, req := { valid := 1#1, op := 1#1, operand := x } } :: rest } =
      step { s with host := .cycle { rst := rst, req := { valid := 1#1, op := 1#1, operand := y } } :: rest }) ∧
  ∀ x : Word64, pinsInstr { rst := 0#1, req := { valid := 1#1, op := 1#1, operand := x } } =
    .dec (x.extractLsb' 24 8) (x.extractLsb' 16 8) (x.extractLsb' 8 8) (x.extractLsb' 0 8)

/-- A stopped clock holds the registers, power loss unresets the block (events: log entry 11); both keep the mark (log entry 4). R152 for the registers. The events are log entry 11 (DESIGN CHOICE); that power loss keeps the fault mark is log entry 4 (DEDUCED). -/
def Obligations.ClockStopHoldsAndPowerLossUnresets : Prop :=
  ∀ (s : State) (rest : List HostEvent),
    step { s with host := .clockStopped :: rest } = .next { s with host := rest } ∧
    step { s with host := .powerLoss :: rest } = .next { s with resp := none, host := rest }

/-- With nothing left in the schedule there is no step (the model's choice: log entry 2). A run ends after the last cycle the host drives (R129); log entry 2. -/
def Obligations.RunEndsWhenTheHostDrivesNothing : Prop :=
  (∀ s : State, s.host = [] → step s = .refused .noCycleDriven) ∧
  ∀ s : State, step s = .refused .noCycleDriven → s.host = []

/-- Once reset, every cycle the host drives completes and leaves the block reset: no stall, no trap, no refusal. R121 (total once reset), R124 (a request is accepted in every cycle) and R140 (every request completes). -/
def Obligations.OnceResetTheBlockNeverStopsOnACycle : Prop :=
  ∀ (ps : List Pins) (s : State) (rest : List HostEvent), s.resp ≠ none →
    ∃ t, stateAfter ps.length { s with host := ps.map .cycle ++ rest } = some t ∧ t.resp ≠ none ∧ t.host = rest

/-- The response to a request depends on that request alone, not on earlier requests, responses or the mark. R31 and R46. -/
def Obligations.ResponseDependsOnlyOnTheRequest : Prop :=
  ∀ (s s' : State) (q : Request) (rest rest' : List HostEvent), q.valid = 1#1 → s.resp ≠ none → s'.resp ≠ none →
    ∃ t t', step { s with host := .cycle { rst := 0#1, req := q } :: rest } = .next t ∧
      step { s' with host := .cycle { rst := 0#1, req := q } :: rest' } = .next t' ∧ t.resp = t'.resp ∧
      t.resp ≠ none

/-! ### Runs and invariants -/

/-- Back-to-back requests are answered one for one, in order, each in the next cycle. R49, R123 and R124. -/
def Obligations.ResponsesComeInRequestOrder : Prop :=
  ∀ (ps : List Pins) (s : State) (rest : List HostEvent), s.resp ≠ none →
    (∀ p ∈ ps, p.rst = 0#1 ∧ p.req.valid = 1#1) →
    observation ps.length { s with host := ps.map .cycle ++ rest } = ps.map (fun p => some (responseTo p.req))

/-- A response's data stays readable through any number of idle cycles, with resp_valid 1 only in the first cycle after the request. R123 and R177. -/
def Obligations.ResponseStaysReadableThroughIdleCycles : Prop :=
  ∀ (idle : List Pins) (s : State) (p : Pins) (rest : List HostEvent), s.resp ≠ none → p.rst = 0#1 →
    p.req.valid = 1#1 → (∀ i ∈ idle, i.rst = 0#1 ∧ i.req.valid = 0#1) →
    ∃ t, stateAfter (idle.length + 1) { s with host := .cycle p :: (idle.map .cycle ++ rest) } = some t ∧
      t.resp = some { responseTo p.req with valid := if idle = [] then 1#1 else 0#1 }

/-- An ENC response's data fed back as a DEC operand is decoded in the next cycle, a NaN's digits too (log entry 3). R177, with R65's layout of the ENC response. It holds for a NaN as a fact about the registers alone: R141 gives those digits no meaning as an encoding (log entry 3, DESIGN CHOICE). -/
def Obligations.RoundTripTakesTwoRequests : Prop :=
  ∀ (f : F64) (s : State) (rest : List HostEvent), s.resp ≠ none →
    ∃ t r, step { s with host := .cycle (instrPins (.enc f)) :: rest } = .next t ∧ t.resp = some r ∧
      ∃ u, step { t with host := .cycle { rst := 0#1, req := { valid := 1#1, op := 1#1, operand := r.data } } :: rest } =
          .next u ∧
        u.resp = some { valid := 1#1, op := 1#1, data := decFn (encFn f).1, invalid := 0#1 }

/-- A run of cycles whose first is a reset completes from any state, the unreset one too. R175 and R129; that there is no step after the last cycle is by name noCycleDriven, log entry 2 (DESIGN CHOICE). -/
def Obligations.RunThatStartsWithAResetCompletes : Prop :=
  ∀ (es : List HostEvent) (s : State), isRun es = true →
    ∃ t, stateAfter es.length { s with host := es } = some t ∧ t.resp ≠ none ∧ t.host = [] ∧
      step t = .refused .noCycleDriven

/-- The state right after reset meets the invariant of the response registers and the mark. The base of the invariant. -/
def Obligations.StateInvariantHoldsAfterReset : Prop :=
  stateInv State.reset = true

/-- Every step keeps: ENC data at most N_MAX, DEC data +0.0 or positive normal of 32 bits, the flag only with zero ENC data, faults marked. R65 and R87 for ENC data, R106 and R109 for DEC data, R27 and R81 for the flag, R141 for the mark. -/
def Obligations.EveryStepKeepsTheStateInvariant : Prop :=
  ∀ s t : State, stateInv s = true → step s = .next t → stateInv t = true

/-- A step never clears the fault mark, and sets it only on reaching a state that shows the fault (log entries 3 and 4). R141 (the fault flag in the model is sticky); that a reset and a power loss keep it is log entry 4. -/
def Obligations.MarkIsStickyAndSetOnlyByAFault : Prop :=
  ∀ s t : State, step s = .next t →
    (s.faultMark ≠ none → t.faultMark = s.faultMark) ∧
    (s.faultMark = none → t.faultMark ≠ none → stateShowsFault t = true)

/-- After any number of steps the mark is absent exactly when the run was clean (log entry 4). R129's clean run against R141's sticky mark. -/
def Obligations.MarkTellsCleanRunsFromTheRest : Prop :=
  ∀ (k : Nat) (s t : State), s.faultMark = none → stateShowsFault s = false → stateAfter k s = some t →
    (t.faultMark = none ↔ cleanRun k s = true)

/-- A step of one copy of the block leaves every other copy as it was, and is that copy's own step. R150 and R54; the system as a list is log entry 12. -/
def Obligations.CopiesOfTheBlockDoNotInteract : Prop :=
  ∀ (k : Nat) (y y' : System), stepCopy k y = some (.next y') →
    (∃ s t, y.copies[k]? = some s ∧ step s = .next t ∧ y'.copies[k]? = some t) ∧
    (∀ j : Nat, j ≠ k → y'.copies[j]? = y.copies[j]?) ∧ y'.copies.length = y.copies.length

/-! ### The assembler -/

/-- Every statement with well-formed literals of any kind drives the rst and the request word that R72 to R74 give it. R74 and R73, with every kind of literal of R72. A decimal beyond the largest finite number follows fl64 there (log entry 8). -/
def Obligations.AssembledStatementsDriveTheirRequestWords : Prop :=
  (∀ (l : ScalarLit) (f : F64), scalarBits l = .ok f →
    stmtCycles (.enc l) = .ok [{ rst := 0#1, req := requestOfWord (1#1 ++ 0#1 ++ f) }]) ∧
  (∀ f : F64, scalarBits (.hex 16 f.toNat) = .ok f) ∧
  (∀ (n : Nat) (e : Int), scalarBits (.decimal false n e) = .ok (fl64 ((n : ℚ) * 10 ^ e))) ∧
  (∀ (n : Nat) (e : Int), 0 < n → scalarBits (.decimal true n e) = .ok (fl64 (-((n : ℚ) * 10 ^ e)))) ∧
  (∀ e : Int, scalarBits (.decimal true 0 e) = .ok 0x8000000000000000#64) ∧
  scalarBits (.decimal false 1 (-1)) = .ok 0x3FB999999999999A#64 ∧
  scalarBits .nan = .ok 0x7FF8000000000000#64 ∧ scalarBits .inf = .ok 0x7FF0000000000000#64 ∧
  scalarBits .negInf = .ok 0xFFF0000000000000#64 ∧
  (∀ c : Byte, channelByte (.decimal c.toNat) = .ok c ∧ channelByte (.hex 2 c.toNat) = .ok c ∧
    (c.toNat < 16 → channelByte (.hex 1 c.toNat) = .ok c)) ∧
  (∀ (lr lg lb la : ChannelLit) (r g b a : Byte), channelByte lr = .ok r → channelByte lg = .ok g →
    channelByte lb = .ok b → channelByte la = .ok a →
    stmtCycles (.dec lr lg lb la) =
      .ok [{ rst := 0#1, req := requestOfWord (1#1 ++ 1#1 ++ (0#32 ++ (r ++ g ++ b ++ a))) }]) ∧
  stmtCycles .nop = .ok [{ rst := 0#1, req := requestOfWord 0x00000000000000000#66 }] ∧
  stmtCycles .reset = .ok [{ rst := 1#1, req := requestOfWord 0x00000000000000000#66 }] ∧
  (∀ h : Word32, stmtCycles (.decw 8 h.toNat) =
    stmtCycles (.dec (.decimal (h.extractLsb' 24 8).toNat) (.decimal (h.extractLsb' 16 8).toNat)
      (.decimal (h.extractLsb' 8 8).toNat) (.decimal (h.extractLsb' 0 8).toNat))) ∧
  (∀ n : Nat, 1 ≤ n → stmtCycles (.nops n) =
    .ok (List.replicate n { rst := 0#1, req := requestOfWord 0x00000000000000000#66 }))

/-- A channel outside [0, 255] or of three hexadecimal digits, a raw scalar not of 16 digits, a decw not of 8, nop 0: all refused. The refusals of R72 and R73, and R102. -/
def Obligations.AssemblerRefusesIllFormedLiterals : Prop :=
  (∀ n : Nat, 255 < n → channelByte (.decimal n) = .error .channelOutOfRange) ∧
  (∀ d v : Nat, d ≠ 1 → d ≠ 2 → channelByte (.hex d v) = .error .channelDigits) ∧
  (∀ (d v : Nat) (c : Byte), 255 < v → channelByte (.hex d v) ≠ .ok c) ∧
  (∀ (bad : ChannelLit) (why : AsmReason), channelByte bad = .error why →
    (∀ g b a : ChannelLit, stmtCycles (.dec bad g b a) = .error why) ∧
    (∀ (r b a : ChannelLit) (r' : Byte), channelByte r = .ok r' → stmtCycles (.dec r bad b a) = .error why) ∧
    (∀ (r g a : ChannelLit) (r' g' : Byte), channelByte r = .ok r' → channelByte g = .ok g' →
      stmtCycles (.dec r g bad a) = .error why) ∧
    (∀ (r g b : ChannelLit) (r' g' b' : Byte), channelByte r = .ok r' → channelByte g = .ok g' →
      channelByte b = .ok b' → stmtCycles (.dec r g b bad) = .error why) ∧
    ∀ (r g b a : ChannelLit) (ps : List Pins), (r = bad ∨ g = bad ∨ b = bad ∨ a = bad) →
      stmtCycles (.dec r g b a) ≠ .ok ps) ∧
  (∀ d v : Nat, d ≠ 16 → stmtCycles (.enc (.hex d v)) = .error .scalarDigits) ∧
  (∀ d v : Nat, d ≠ 8 → stmtCycles (.decw d v) = .error .packedDigits) ∧
  stmtCycles (.nops 0) = .error .idleCount

/-! ### Runs of cycles -/

/-- A run has one observed state for each of its cycles, each with registers; the mark after it is absent just when it was clean (log entry 4). R129, and R141 for the mark (log entries 3 and 4). -/
def Obligations.ObservationOfARunHasOneStateForEachCycle : Prop :=
  (∀ es : List HostEvent, isRun es = true ↔
    ∃ (p : Pins) (ps : List Pins), p.rst = 1#1 ∧ es = .cycle p :: ps.map .cycle) ∧
  (∀ (es : List HostEvent) (s : State), isRun es = false → runObservation es s = none) ∧
  ∀ (es : List HostEvent) (s : State), isRun es = true → s.faultMark = none →
    ∃ (rs : List Resp) (t : State), runObservation es s = some (rs.map some) ∧ rs.length = es.length ∧
      rs.head? = some Resp.reset ∧ stateAfter es.length { s with host := es } = some t ∧
      t.resp = rs.getLast? ∧ (t.faultMark = none ↔ ∀ r ∈ rs, ¬ (r.valid = 1#1 ∧ r.invalid = 1#1))
end

