-- ==== Sys2Proof/Laws/State.lean ====
section
/-! SUPPORT. The small lemmas of the state: one per field and update, true by unfolding the update once. -/

namespace Sys2Proof.Machine

section Updates
variable (x : Resp) (s : State) (w : RequestWord) (ps : List Pins)

@[simp] theorem writeResp_resp : (writeResp x s).resp = some x := rfl
@[simp] theorem writeResp_host : (writeResp x s).host = s.host := rfl
@[simp] theorem writeResp_faultMark :
    (writeResp x s).faultMark = if respShowsFault x then some .respInvalid else s.faultMark := rfl

@[simp] theorem takeReset_resp : (takeReset s).resp = some Resp.reset := rfl
@[simp] theorem takeReset_host : (takeReset s).host = s.host := rfl
@[simp] theorem takeReset_faultMark : (takeReset s).faultMark = s.faultMark := rfl

@[simp] theorem losePower_resp : (losePower s).resp = none := rfl
@[simp] theorem losePower_host : (losePower s).host = s.host := rfl
@[simp] theorem losePower_faultMark : (losePower s).faultMark = s.faultMark := rfl

@[simp] theorem driveNext_resp : (driveNext w s).resp = s.resp := rfl
@[simp] theorem driveNext_host : (driveNext w s).host = .cycle (requestPins w) :: s.host.tail := rfl
@[simp] theorem driveNext_faultMark : (driveNext w s).faultMark = s.faultMark := rfl

@[simp] theorem driveCycles_resp : (driveCycles ps s).resp = s.resp := rfl
@[simp] theorem driveCycles_host : (driveCycles ps s).host = ps.map .cycle := rfl
@[simp] theorem driveCycles_faultMark : (driveCycles ps s).faultMark = s.faultMark := rfl

end Updates

section Registers
variable (r : Resp) (f : F64) (c₁ c₂ c₃ c₄ : Byte)

@[simp] theorem idleResp_valid : (idleResp r).valid = 0#1 := rfl
@[simp] theorem idleResp_op : (idleResp r).op = r.op := rfl
@[simp] theorem idleResp_data : (idleResp r).data = r.data := rfl
@[simp] theorem idleResp_invalid : (idleResp r).invalid = r.invalid := rfl

@[simp] theorem encResp_valid : (encResp f).valid = 1#1 := rfl
@[simp] theorem encResp_op : (encResp f).op = 0#1 := rfl
@[simp] theorem encResp_data : (encResp f).data = zext64 (encFn f).1 := rfl
@[simp] theorem encResp_invalid : (encResp f).invalid = (encFn f).2 := rfl

@[simp] theorem decResp_valid : (decResp c₁ c₂ c₃ c₄).valid = 1#1 := rfl
@[simp] theorem decResp_op : (decResp c₁ c₂ c₃ c₄).op = 1#1 := rfl
@[simp] theorem decResp_data : (decResp c₁ c₂ c₃ c₄).data = decFn (pack c₁ c₂ c₃ c₄) := rfl
@[simp] theorem decResp_invalid : (decResp c₁ c₂ c₃ c₄).invalid = 0#1 := rfl

end Registers

/-- A bit is 0 or 1. -/
theorem bit_cases (b : Bit) : b = 0#1 ∨ b = 1#1 := by
  revert b; decide

/-- A response whose RESP_VALID is 0 shows no fault (R141). -/
@[simp] theorem respShowsFault_idle (r : Resp) : respShowsFault (idleResp r) = false := rfl

@[simp] theorem respShowsFault_reset : respShowsFault Resp.reset = false := rfl

@[simp] theorem respShowsFault_dec (c₁ c₂ c₃ c₄ : Byte) : respShowsFault (decResp c₁ c₂ c₃ c₄) = false := rfl

@[simp] theorem encFnAt_invalid (hi f : F64) : (encFnAt hi f).2 = invalidFlag f := by
  unfold encFnAt; split <;> rfl

@[simp] theorem encFn_invalid (f : F64) : (encFn f).2 = invalidFlag f := encFnAt_invalid _ f

/-- The one response that shows the fault is an ENC of a NaN (R81, R141). -/
@[simp] theorem respShowsFault_enc (f : F64) : respShowsFault (encResp f) = isNaN f := by
  cases h : isNaN f <;> simp [respShowsFault, invalidFlag, h]

end Sys2Proof.Machine
end

