-- ==== Sys2Proof/Laws/Assembler.lean ====
section
/-! SUPPORT. What a run of events is, and what each form of literal and statement of the assembler can give
(spec/44_interface_cycle.md R129; spec/30_encoding.md R72 to R74). -/

namespace Sys2Proof.Machine

/-- A list of events that are all cycles is a list of cycles' inputs. -/
theorem all_isCycle {es : List HostEvent} (h : es.all isCycle = true) : ∃ ps : List Pins, es = ps.map .cycle := by
  induction es with
  | nil => exact ⟨[], rfl⟩
  | cons e es ih =>
    rw [List.all_cons, Bool.and_eq_true] at h
    obtain ⟨ps, rfl⟩ := ih h.2
    cases e with
    | cycle p => exact ⟨p :: ps, rfl⟩
    | clockStopped => exact absurd h.1 (by decide)
    | powerLoss => exact absurd h.1 (by decide)

/-- The events of a run: a reset cycle, then cycles (R129). -/
theorem isRun_eq_true {es : List HostEvent} (h : isRun es = true) :
    ∃ (p : Pins) (ps : List Pins), p.rst = 1#1 ∧ es = (p :: ps).map .cycle := by
  cases es with
  | nil => exact absurd h (by decide)
  | cons e es =>
    cases e with
    | cycle p =>
      simp only [isRun, Bool.and_eq_true, beq_iff_eq] at h
      obtain ⟨ps, rfl⟩ := all_isCycle h.2
      exact ⟨p, ps, h.1, rfl⟩
    | clockStopped => simp [isRun] at h
    | powerLoss => simp [isRun] at h

/-- A channel literal that is accepted, of either form (R72). -/
theorem channelByte_eq_ok {l : ChannelLit} {c : Byte} (h : channelByte l = .ok c) :
    l = .decimal c.toNat ∨ (l = .hex 1 c.toNat ∧ c.toNat < 16) ∨ l = .hex 2 c.toNat := by
  cases l with
  | decimal n =>
    by_cases hn : n < 2 ^ 8
    · rw [channelByte, if_pos (by simpa [channelOk] using hn)] at h
      cases h
      left
      rw [BitVec.toNat_ofNat, Nat.mod_eq_of_lt hn]
    · rw [channelByte, if_neg (by simpa [channelOk] using hn)] at h
      cases h
  | hex d n =>
    by_cases hd : (d = 1 ∨ d = 2) ∧ n < 16 ^ d
    · rw [channelByte, if_pos (by simpa [channelDigitsOk] using hd)] at h
      cases h
      obtain ⟨rfl | rfl, hn⟩ := hd
      · have h16 : n < 16 := by simpa using hn
        have h8 : n < 2 ^ 8 := by omega
        right; left
        rw [BitVec.toNat_ofNat, Nat.mod_eq_of_lt h8]
        exact ⟨rfl, h16⟩
      · have h8 : n < 2 ^ 8 := by simpa using hn
        right; right
        rw [BitVec.toNat_ofNat, Nat.mod_eq_of_lt h8]
    · rw [channelByte, if_neg (by simpa [channelDigitsOk] using hd)] at h
      cases h

/-- A `dec` statement drives cycles only when all four literals are accepted (R72). -/
theorem stmtCycles_dec_eq_ok {r g b a : ChannelLit} {ps : List Pins} (h : stmtCycles (.dec r g b a) = .ok ps) :
    ∃ r' g' b' a', channelByte r = .ok r' ∧ channelByte g = .ok g' ∧ channelByte b = .ok b' ∧
      channelByte a = .ok a' ∧ ps = [instrPins (.dec r' g' b' a')] := by
  simp only [stmtCycles] at h
  cases hr : channelByte r with
  | error => rw [hr] at h; cases h
  | ok r' =>
    rw [hr] at h
    cases hg : channelByte g with
    | error => rw [hg] at h; cases h
    | ok g' =>
      rw [hg] at h
      cases hb : channelByte b with
      | error => rw [hb] at h; cases h
      | ok b' =>
        rw [hb] at h
        cases ha : channelByte a with
        | error => rw [ha] at h; cases h
        | ok a' => rw [ha] at h; cases h; exact ⟨r', g', b', a', rfl, rfl, rfl, rfl, rfl⟩

end Sys2Proof.Machine
end

