-- ==== Sys2Proof/Laws/Binary64.lean ====
section
/-! SUPPORT. What rounding does to a value that binary64 can hold (spec/00_scope.md R6, R7): nothing. Stated once, for the
exactness of every step of ENC and DEC. -/

namespace Sys2Proof.Machine

/-- `binadeOf x` is the binade of x. -/
theorem binadeOf_spec {x : ℚ} (hx : 0 < x) : (2:ℚ) ^ binadeOf x ≤ x ∧ x < (2:ℚ) ^ (binadeOf x + 1) := by
  have h2 : (2:ℚ) ≠ 0 := by norm_num
  have hn : x.num.natAbs ≠ 0 := by
    simpa using (Rat.num_pos.mpr hx).ne'
  have hd : x.den ≠ 0 := x.den_nz
  have hxe : x = (x.num.natAbs : ℚ) / (x.den : ℚ) := by
    have h0 : ((x.num.natAbs : ℤ)) = x.num := Int.natAbs_of_nonneg (Rat.num_pos.mpr hx).le
    have h1 : ((x.num.natAbs : ℕ) : ℚ) = (x.num : ℚ) := by rw [← h0]; simp
    rw [h1]; exact (Rat.num_div_den x).symm
  have hdpos : (0:ℚ) < x.den := by exact_mod_cast Nat.pos_of_ne_zero hd
  have n1 : (2:ℚ) ^ (x.num.natAbs.log2 : ℤ) ≤ x.num.natAbs := by
    rw [zpow_natCast]; exact_mod_cast Nat.log2_self_le hn
  have n2 : (x.num.natAbs : ℚ) < (2:ℚ) ^ ((x.num.natAbs.log2 : ℤ) + 1) := by
    have : x.num.natAbs < 2 ^ (x.num.natAbs.log2 + 1) := Nat.lt_log2_self
    rw [← Nat.cast_succ, zpow_natCast]; exact_mod_cast this
  have d1 : (2:ℚ) ^ (x.den.log2 : ℤ) ≤ x.den := by
    rw [zpow_natCast]; exact_mod_cast Nat.log2_self_le hd
  have d2 : (x.den : ℚ) < (2:ℚ) ^ ((x.den.log2 : ℤ) + 1) := by
    have : x.den < 2 ^ (x.den.log2 + 1) := Nat.lt_log2_self
    rw [← Nat.cast_succ, zpow_natCast]; exact_mod_cast this
  set a : ℤ := (x.num.natAbs.log2 : ℤ)
  set b : ℤ := (x.den.log2 : ℤ)
  have lo : (2:ℚ) ^ (a - b - 1) ≤ x := by
    have e : (2:ℚ) ^ a = (2:ℚ) ^ (a - b - 1) * (2:ℚ) ^ (b + 1) := by rw [← zpow_add₀ h2]; congr 1; ring
    rw [hxe, le_div_iff₀ hdpos]
    calc (2:ℚ) ^ (a - b - 1) * (x.den : ℚ) ≤ (2:ℚ) ^ (a - b - 1) * (2:ℚ) ^ (b + 1) := by
          apply mul_le_mul_of_nonneg_left d2.le; positivity
      _ = (2:ℚ) ^ a := e.symm
      _ ≤ _ := n1
  have hi : x < (2:ℚ) ^ (a - b + 1) := by
    have e : (2:ℚ) ^ (a + 1) = (2:ℚ) ^ (a - b + 1) * (2:ℚ) ^ b := by rw [← zpow_add₀ h2]; congr 1; ring
    rw [hxe, div_lt_iff₀ hdpos]
    calc _ < (2:ℚ) ^ (a + 1) := n2
      _ = (2:ℚ) ^ (a - b + 1) * (2:ℚ) ^ b := e
      _ ≤ (2:ℚ) ^ (a - b + 1) * (x.den : ℚ) := by
          apply mul_le_mul_of_nonneg_left d1; positivity
  unfold binadeOf
  by_cases hk : (2:ℚ) ^ (a - b) ≤ x
  · simp only [a, b] at hk hi ⊢
    rw [if_pos hk]; exact ⟨hk, hi⟩
  · simp only [a, b] at hk lo ⊢
    rw [if_neg hk]; exact ⟨lo, by rw [sub_add_cancel]; exact not_le.mp hk⟩

/-- An integer is its own nearest. -/
theorem roundHalfEven_int (n : ℤ) : roundHalfEven (n : ℚ) = n := by
  simp [roundHalfEven]

/-- A field of a pattern given by its number. -/
theorem field_toNat (k start len : ℕ) :
    ((BitVec.ofNat 64 k).extractLsb' start len).toNat = k % 2 ^ 64 / 2 ^ start % 2 ^ len := by
  rw [BitVec.extractLsb'_toNat, BitVec.toNat_ofNat, Nat.shiftRight_eq_div_pow]

/-- The fields of the pattern with exponent field `e` and fraction `m` (R6). -/
theorem fields_of_nat (e m : Nat) (he : e < 2047) (hm : m < 2 ^ 52) :
    signOf (BitVec.ofNat 64 (e * 2 ^ 52 + m)) = 0#1 ∧ exponentOf (BitVec.ofNat 64 (e * 2 ^ 52 + m)) = e ∧
      fractionOf (BitVec.ofNat 64 (e * 2 ^ 52 + m)) = m := by
  have h64 : (e * 2 ^ 52 + m) % 2 ^ 64 = e * 2 ^ 52 + m := Nat.mod_eq_of_lt (by omega)
  have hdiv : (e * 2 ^ 52 + m) / 2 ^ 52 = e := by
    rw [Nat.add_comm, Nat.add_mul_div_right _ _ (by positivity), Nat.div_eq_of_lt hm, Nat.zero_add]
  refine ⟨?_, ?_, ?_⟩
  · apply BitVec.eq_of_toNat_eq
    rw [signOf, field_toNat, h64, Nat.div_eq_of_lt (by omega)]; rfl
  · rw [exponentOf, field_toNat, h64, hdiv, Nat.mod_eq_of_lt (by omega)]
  · rw [fractionOf, field_toNat, h64, Nat.pow_zero, Nat.div_one, Nat.add_comm, Nat.add_mul_mod_self_right, Nat.mod_eq_of_lt hm]

/-- The value of the pattern with sign 0, exponent field `e` and fraction `m` (R6). -/
theorem valueOf_of_nat (e m : Nat) (he : e < 2047) (hm : m < 2 ^ 52) :
    valueOf (BitVec.ofNat 64 (e * 2 ^ 52 + m)) =
      some (.real (if e = 0 then (m : ℚ) * 2 ^ (-1074 : ℤ) else ((2 ^ 52 + m : ℕ) : ℚ) * 2 ^ ((e : ℤ) - 1075))) := by
  obtain ⟨h1, h2, h3⟩ := fields_of_nat e m he hm
  have hs : ¬ signOf (BitVec.ofNat 64 (e * 2 ^ 52 + m)) = 1#1 := by rw [h1]; decide
  have hne : e ≠ 2047 := he.ne
  simp only [valueOf, isNaN, isInfinite, magnitudeOf, h2, h3, if_neg hs, beq_eq_false_iff_ne.mpr hne, Bool.false_and,
    Bool.false_eq_true, if_false]

/-- A representable value does not round (R7). -/
theorem valueOf_fl64Abs (m : ℕ) (q : ℤ) (hm : m < 2 ^ 53) (hq : -1074 ≤ q) (hq' : q ≤ 971) :
    valueOf (fl64Abs ((m : ℚ) * 2 ^ q)) = some (.real ((m : ℚ) * 2 ^ q)) := by
  have h2 : (2:ℚ) ≠ 0 := by norm_num
  rcases Nat.eq_zero_or_pos m with rfl | hpos
  · have := valueOf_of_nat 0 0 (by norm_num) (by norm_num)
    simpa [fl64Abs] using this
  · set x : ℚ := (m : ℚ) * 2 ^ q with hx
    have hx0 : 0 < x := by
      have : (0:ℚ) < m := by exact_mod_cast hpos
      positivity
    obtain ⟨lo, hi⟩ := binadeOf_spec hx0
    have hxlt : x < (2:ℚ) ^ (53 + q) := by
      rw [zpow_add₀ h2]
      have : (m:ℚ) < 2 ^ (53:ℤ) := by exact_mod_cast hm
      exact mul_lt_mul_of_pos_right this (by positivity)
    have hk : binadeOf x < 53 + q := by
      by_contra hc
      rw [not_lt] at hc
      have := zpow_le_zpow_right₀ (by norm_num : (1:ℚ) ≤ 2) hc
      linarith
    have htq : lastPlaceOf x ≤ q := by unfold lastPlaceOf; omega
    have ht1 : -1074 ≤ lastPlaceOf x := le_max_right _ _
    have hkt : binadeOf x ≤ lastPlaceOf x + 52 := by unfold lastPlaceOf; omega
    have hcase : lastPlaceOf x = -1074 ∨ lastPlaceOf x = binadeOf x - 52 := by unfold lastPlaceOf; omega
    set t := lastPlaceOf x
    obtain ⟨j, hj⟩ : ∃ j : ℕ, q = t + j := ⟨(q - t).toNat, by omega⟩
    have hquot : x / 2 ^ t = ((m * 2 ^ j : ℕ) : ℤ) := by
      rw [hx, hj, zpow_add₀ h2, zpow_natCast]
      field_simp
      push_cast; rfl
    set M : ℕ := m * 2 ^ j
    have hxM : x = (M : ℚ) * 2 ^ t := by
      have : x / 2 ^ t = (M : ℚ) := by rw [hquot]; simp
      field_simp at this; linarith
    have hM53 : M < 2 ^ 53 := by
      have h1 : (M : ℚ) * 2 ^ t < 2 ^ (53:ℤ) * 2 ^ t := by
        rw [← hxM, ← zpow_add₀ h2]
        refine lt_of_lt_of_le hi (zpow_le_zpow_right₀ (by norm_num) (by omega))
      have h3 := lt_of_mul_lt_mul_right h1 (by positivity)
      exact_mod_cast h3
    have hround : (roundHalfEven (x / 2 ^ t)).toNat = M := by
      rw [hquot, roundHalfEven_int]; simp
    have hfl : fl64Abs x = BitVec.ofNat 64 (min ((t + 1074).toNat * 2 ^ 52 + M) posInfBits.toNat) := by
      rw [fl64Abs, if_neg hx0.ne']
      simp only [hround, t]
    have hinf : posInfBits.toNat = 2047 * 2 ^ 52 := by decide
    obtain ⟨u, hu⟩ : ∃ u : ℕ, t = (u : ℤ) - 1074 := ⟨(t + 1074).toNat, by omega⟩
    have htn : (t + 1074).toNat = u := by omega
    have hu45 : u ≤ 2045 := by omega
    rcases Nat.lt_or_ge M (2 ^ 52) with hlow | hhigh
    · have ht : u = 0 := by
        rcases hcase with h | h
        · omega
        · exfalso
          have h1 : (2:ℚ) ^ (52:ℤ) * 2 ^ t ≤ (M:ℚ) * 2 ^ t := by
            rw [← hxM, ← zpow_add₀ h2]
            have : (52:ℤ) + t = binadeOf x := by omega
            rw [this]; exact lo
          have h3 := le_of_mul_le_mul_right h1 (by positivity)
          have : 2 ^ 52 ≤ M := by exact_mod_cast h3
          omega
      rw [hfl, htn, ht, hinf, Nat.min_eq_left (by omega)]
      have := valueOf_of_nat 0 M (by norm_num) hlow
      rw [this, hxM, hu, ht]; simp
    · rw [hfl, htn, hinf, Nat.min_eq_left (by omega)]
      have he : u * 2 ^ 52 + M = (u + 1) * 2 ^ 52 + (M - 2 ^ 52) := by omega
      rw [he, valueOf_of_nat (u + 1) (M - 2 ^ 52) (by omega) (by omega), if_neg (by omega), hxM, hu]
      have : 2 ^ 52 + (M - 2 ^ 52) = M := by omega
      rw [this]
      have hexp : (((u + 1 : ℕ) : ℤ)) - 1075 = (u : ℤ) - 1074 := by push_cast; ring
      rw [hexp]

/-- Every finite pattern denotes ± m · 2^q with m below 2^53 (R6). -/
theorem valueOf_real_form {f : F64} {x : ℚ} (h : valueOf f = some (.real x)) :
    ∃ (m : ℕ) (q : ℤ), m < 2 ^ 53 ∧ -1074 ≤ q ∧ q ≤ 971 ∧
      x = (if signOf f = 1#1 then -((m : ℚ) * 2 ^ q) else (m : ℚ) * 2 ^ q) := by
  have hE : exponentOf f < 2 ^ 11 := (f.extractLsb' 52 11).isLt
  have hM : fractionOf f < 2 ^ 52 := (f.extractLsb' 0 52).isLt
  unfold valueOf at h
  by_cases hn : isNaN f
  · simp [hn] at h
  by_cases hi : isInfinite f
  · rw [if_neg hn, if_pos hi] at h
    split at h <;> simp at h
  have hne : exponentOf f ≠ 2047 := by
    intro he
    rcases Nat.eq_zero_or_pos (fractionOf f) with h0 | h0
    · exact hi (by simp [isInfinite, he, h0])
    · exact hn (by simp [isNaN, he, h0.ne'])
  rw [if_neg hn, if_neg hi] at h
  simp only [Option.some.injEq, Ext.real.injEq] at h
  by_cases he : exponentOf f = 0
  · refine ⟨fractionOf f, -1074, by omega, le_refl _, by norm_num, ?_⟩
    rw [← h, magnitudeOf, if_pos he]
  · refine ⟨2 ^ 52 + fractionOf f, (exponentOf f : ℤ) - 1075, by omega, by omega, by omega, ?_⟩
    rw [← h, magnitudeOf, if_neg he]

/-- A non-negative number is rounded by its magnitude. -/
theorem fl64_of_nonneg {x : ℚ} (h : 0 ≤ x) : fl64 x = fl64Abs x := by
  rw [fl64, if_neg (not_lt.mpr h)]

/-- to64 is exact below 2^53 (R8). -/
theorem valueOf_to64 {n : ℕ} (h : n < 2 ^ 53) : valueOf (to64 n) = some (.real n) := by
  have := valueOf_fl64Abs n 0 h (by norm_num) (by norm_num)
  rw [to64, fl64_of_nonneg (by positivity)]
  simpa using this

/-- An operation on finite patterns is fl64 of its exact result (R7). -/
theorem arith64_of_real {op : ArithOp} {a b : F64} {x y z : ℚ} (ha : valueOf a = some (.real x))
    (hb : valueOf b = some (.real y)) (hz : exactResult op x y = some z) : arith64 op a b = fl64 z := by
  simp [arith64, ha, hb, hz]

/-- floor64 of a finite pattern is the floor of its value (R8). -/
theorem floor64_of_real {v : F64} {x : ℚ} (h : valueOf v = some (.real x)) : floor64 v = ⌊x⌋ := by
  simp [floor64, h]

end Sys2Proof.Machine
end

