-- ==== Sys2Proof/Laws/Encoding.lean ====
section
/-! SUPPORT. The decoder on a request given by its ports (spec/30_encoding.md R60 to R63, R68), and the packed quadruple of
a DEC operand (spec/41_decoder.md R101). -/

namespace Sys2Proof.Machine

/-- The bits of a request word, lowest field first (R60). -/
theorem getLsbD_requestWord (q : Request) (i : Nat) :
    (requestWord q).getLsbD i =
      if i < 64 then q.operand.getLsbD i else if i - 64 < 1 then q.op.getLsbD (i - 64)
      else q.valid.getLsbD (i - 64 - 1) := by
  simp only [requestWord, BitVec.getLsbD_append]

theorem requestWord_valid (q : Request) : (requestWord q).extractLsb' 65 1 = q.valid := by
  apply BitVec.eq_of_getLsbD_eq
  intro i hi
  obtain rfl : i = 0 := by omega
  simp only [BitVec.getLsbD_extractLsb', getLsbD_requestWord]
  simp

theorem requestWord_op (q : Request) : (requestWord q).extractLsb' 64 1 = q.op := by
  apply BitVec.eq_of_getLsbD_eq
  intro i hi
  obtain rfl : i = 0 := by omega
  simp only [BitVec.getLsbD_extractLsb', getLsbD_requestWord]
  simp

/-- A field of the operand is the field at the same place of the word (R60). -/
theorem requestWord_operand (q : Request) (start len : Nat) (h : start + len ≤ 64) :
    (requestWord q).extractLsb' start len = q.operand.extractLsb' start len := by
  apply BitVec.eq_of_getLsbD_eq
  intro i hi
  simp only [BitVec.getLsbD_extractLsb', getLsbD_requestWord]
  rw [if_pos (by omega)]

/-- The decoder on the ports (R68). -/
theorem decode_requestWord (q : Request) :
    decode (requestWord q) =
      if q.valid = 0#1 then .nop
      else if q.op = 0#1 then .enc q.operand
      else .dec (q.operand.extractLsb' 24 8) (q.operand.extractLsb' 16 8) (q.operand.extractLsb' 8 8)
        (q.operand.extractLsb' 0 8) := by
  rw [decode, requestWord_valid, requestWord_op, requestWord_operand _ 0 64 (by omega),
    requestWord_operand _ 24 8 (by omega), requestWord_operand _ 16 8 (by omega), requestWord_operand _ 8 8 (by omega),
    requestWord_operand _ 0 8 (by omega), BitVec.extractLsb'_eq_self]

/-- Packing the four bytes of a word gives its low 32 bits (R10, R101). -/
theorem pack_bytes {w : Nat} (x : BitVec w) :
    pack (x.extractLsb' 24 8) (x.extractLsb' 16 8) (x.extractLsb' 8 8) (x.extractLsb' 0 8) = x.extractLsb' 0 32 := by
  apply BitVec.eq_of_getLsbD_eq
  intro i hi
  simp only [pack, BitVec.getLsbD_append, BitVec.getLsbD_extractLsb']
  split
  · simp [*]
  split
  · simp only [*, decide_true, Bool.true_and]; congr 1; omega
  split
  · simp only [*, decide_true, Bool.true_and]; congr 1; omega
  · have h : i - 8 - 8 - 8 < 8 := by omega
    simp only [h, hi, decide_true, Bool.true_and]; congr 1; omega

end Sys2Proof.Machine
end

