-- ==== Sys2Proof/Laws/Ops.lean ====
section
/-! SUPPORT. What each shared operation and each instruction can do, said once: the provers cite these instead of
unfolding. -/

namespace Sys2Proof.Machine

variable {s t : State} {next : Resp → Resp} {r : Resp}

/-- On a block that has been reset, an instruction writes the registers (R121). -/
theorem respond_of_some (h : s.resp = some r) : respond next s = .next (writeResp (next r) s) := by
  simp [respond, h]

/-- On the unreset block an instruction is refused (R33). -/
theorem respond_of_none (h : s.resp = none) : respond next s = .refused .unreset := by
  simp [respond, h]

/-- Everything an instruction can do when it answers a next state. -/
theorem respond_eq_next (h : respond next s = .next t) : ∃ r, s.resp = some r ∧ t = writeResp (next r) s := by
  unfold respond at h
  split at h
  · cases h
  · next r hr => exact ⟨r, hr, by cases h; rfl⟩

/-- The registers an instruction leaves, from the registers it finds (R80, R100, R122). -/
def instrResp : Instr → Resp → Resp
  | .nop => idleResp
  | .enc f => fun _ => encResp f
  | .dec r g b a => fun _ => decResp r g b a

/-- Every instruction is one write of the response registers (R121). -/
theorem exec_eq_respond (i : Instr) (s : State) : exec i s = respond (instrResp i) s := by
  cases i <;> rfl

theorem exec_of_some (i : Instr) (h : s.resp = some r) : exec i s = .next (writeResp (instrResp i r) s) := by
  rw [exec_eq_respond, respond_of_some h]

theorem exec_of_none (i : Instr) (h : s.resp = none) : exec i s = .refused .unreset := by
  rw [exec_eq_respond, respond_of_none h]

theorem exec_eq_next {i : Instr} (h : exec i s = .next t) :
    ∃ r, s.resp = some r ∧ t = writeResp (instrResp i r) s := by
  rw [exec_eq_respond] at h; exact respond_eq_next h

end Sys2Proof.Machine
end

