-- ==== Sys2Proof/Laws/PerInstr.lean ====
section
/-! SUPPORT. Facts about every instruction as syntax, one lemma per constructor. -/

/-- The encoded word of an instruction matches the mask and match of its own row (spec/30_encoding.md R68, R74). -/
def Sys2Proof.Laws.EncodeMatchesRow.Statement (i : Sys2Proof.Instr) : Prop :=
  Sys2Proof.encode i &&& Sys2Proof.rowMask i = Sys2Proof.rowMatch i

/-- A mask over the two top bits of a request word keeps those and clears the operand. -/
theorem Sys2Proof.Laws.EncodeMatchesRow.high_mask (x m : BitVec 2) (f : Sys2Proof.Word64) :
    (x ++ f) &&& (m ++ 0#64) = (x &&& m) ++ 0#64 := by
  apply BitVec.eq_of_getLsbD_eq
  intro i _
  simp only [BitVec.getLsbD_and, BitVec.getLsbD_append]
  split <;> simp

theorem Sys2Proof.Laws.EncodeMatchesRow.nop : Sys2Proof.Laws.EncodeMatchesRow.Statement .nop :=
  Sys2Proof.Laws.EncodeMatchesRow.high_mask (0#1 ++ 0#1) 2#2 0#64

theorem Sys2Proof.Laws.EncodeMatchesRow.enc (f : Sys2Proof.F64) :
    Sys2Proof.Laws.EncodeMatchesRow.Statement (.enc f) :=
  Sys2Proof.Laws.EncodeMatchesRow.high_mask (1#1 ++ 0#1) 3#2 f

theorem Sys2Proof.Laws.EncodeMatchesRow.dec (r g b a : Sys2Proof.Byte) :
    Sys2Proof.Laws.EncodeMatchesRow.Statement (.dec r g b a) :=
  Sys2Proof.Laws.EncodeMatchesRow.high_mask (1#1 ++ 1#1) 3#2 _
end

