-- ==== Sys2Proof/Laws/Step.lean ====
section
/-! SUPPORT. What a step can do, said once. -/

namespace Sys2Proof.Machine

variable {s t : State} {p : Pins} {e : HostEvent} {rest : List HostEvent}

theorem step_of_nil (h : s.host = []) : step s = .refused .noCycleDriven := by
  simp [step, h]

theorem step_of_cons (h : s.host = e :: rest) : step s = hostEvent e { s with host := rest } := by
  simp [step, h]

/-- An edge with rst = 1 resets (R171). -/
theorem clockEdge_reset (h : p.rst = 1#1) (s : State) : clockEdge p s = .next (takeReset s) := by
  simp [clockEdge, h]

/-- An edge with rst = 0 runs the request (R121). -/
theorem clockEdge_run (h : p.rst = 0#1) (s : State) : clockEdge p s = exec (pinsInstr p) s := by
  simp [clockEdge, h]

/-- A step on a cycle with rst = 1 (R171). -/
theorem step_cycle_reset (h : p.rst = 1#1) (s : State) (rest : List HostEvent) :
    step { s with host := .cycle p :: rest } = .next (takeReset { s with host := rest }) :=
  clockEdge_reset h _

/-- A step on a cycle with rst = 0 on a block that has been reset (R121). -/
theorem step_cycle_run {r : Resp} (hr : s.resp = some r) (h : p.rst = 0#1) (rest : List HostEvent) :
    step { s with host := .cycle p :: rest } =
      .next (writeResp (instrResp (pinsInstr p) r) { s with host := rest }) :=
  (clockEdge_run h _).trans (exec_of_some (r := r) _ hr)

/-- Every way a step can answer a next state: a reset, an instruction on a block that has been reset, a stopped clock,
or power loss. -/
theorem step_eq_next (h : step s = .next t) :
    ∃ e rest, s.host = e :: rest ∧
      ((∃ p, e = .cycle p ∧ p.rst = 1#1 ∧ t = takeReset { s with host := rest }) ∨
       (∃ p r, e = .cycle p ∧ p.rst = 0#1 ∧ s.resp = some r ∧
          t = writeResp (instrResp (pinsInstr p) r) { s with host := rest }) ∨
       (e = .clockStopped ∧ t = { s with host := rest }) ∨
       (e = .powerLoss ∧ t = losePower { s with host := rest })) := by
  cases hs : s.host with
  | nil => rw [step_of_nil hs] at h; cases h
  | cons e rest =>
    refine ⟨e, rest, rfl, ?_⟩
    rw [step_of_cons hs] at h
    cases e with
    | cycle p =>
      rcases bit_cases p.rst with hp | hp
      · obtain ⟨r, hr, ht⟩ := exec_eq_next ((clockEdge_run hp _).symm.trans h)
        exact .inr (.inl ⟨p, r, rfl, hp, hr, ht⟩)
      · have h' := (clockEdge_reset hp _).symm.trans h
        cases h'
        exact .inl ⟨p, rfl, hp, rfl⟩
    | clockStopped => cases h; exact .inr (.inr (.inl ⟨rfl, rfl⟩))
    | powerLoss => cases h; exact .inr (.inr (.inr ⟨rfl, rfl⟩))

/-- Putting a table word on the port makes the next step run it, on a state whose host has that event behind it. -/
theorem step_withFetchWord (s : State) (nbits w : Nat) (word : RequestWord)
    (h : requestOfNumber nbits w = .ok word) :
    step (s.withFetchWord nbits w) = exec (pinsInstr (requestPins word)) { s with host := s.host.tail } := by
  simp [State.withFetchWord, h, step, driveNext, hostEvent, clockEdge, requestPins]

end Sys2Proof.Machine
end

