-- ==== Sys2Proof/Tests/Slice0.lean ====
section
/-! SUPPORT. The model's own tests. Every expected value is from spec/95_test_vectors.md or from the rule named, never from
the model. The theorems named witness_<statement> show states and operands that meet the hypotheses of the statement. -/

namespace Sys2Proof.Machine

/-! ### Well-formedness: for each check a term it refuses, and the edge it accepts -/

/-- R69: no instruction is ill-formed, at any operand. -/
theorem test_wellFormed_all :
    Instr.wellFormed .nop = true ∧ Instr.wellFormed (.enc 0xFFFFFFFFFFFFFFFF#64) = true ∧
      Instr.wellFormed (.dec 255#8 255#8 255#8 255#8) = true := by decide

/-- R72, R102: a channel of 256 is refused, 255 is not. -/
theorem test_channelOk_refuses_256 : channelOk 256 = false ∧ channelOk 255 = true := by decide

/-- R73: seven or nine digits are no `decw` operand. -/
theorem test_packedOk_refuses_7_and_9 : packedOk 7 = false ∧ packedOk 9 = false ∧ packedOk 8 = true := by decide

/-- R72: fifteen digits are no raw scalar. -/
theorem test_scalarDigitsOk_refuses_15 : scalarDigitsOk 15 = false ∧ scalarDigitsOk 16 = true := by decide

/-- R72: three digits are no hexadecimal channel. -/
theorem test_channelDigitsOk_refuses_3 : channelDigitsOk 3 = false ∧ channelDigitsOk 2 = true := by decide

/-- R73: `nop 0` is refused. -/
theorem test_idleCountOk_refuses_0 : idleCountOk 0 = false ∧ idleCountOk 1 = true := by decide

/-- R60: a number of 67 bits is no request word. -/
theorem test_requestOk_refuses_67_bits : requestOk (2 ^ 66) = false ∧ requestOk (2 ^ 66 - 1) = true := by decide

/-- R60: such a number decodes to nothing, and is refused by name. -/
theorem test_decodeTableWord_refuses_67_bits :
    decodeTableWord 72 (2 ^ 66) = none ∧ requestOfNumber 72 (2 ^ 66) = .error .tooWide := by decide

/-! ### Decoding: words written out field by field from R60 to R62 -/

/-- req_valid = 0, every other bit 1 (R63, T3). -/
theorem test_decode_nop : decode (0#1 ++ 1#1 ++ 0xFFFFFFFFFFFFFFFF#64) = .nop := by decide

/-- req_valid = 1, req_op = 0, and 0.5 as sign 0, exponent 1022, fraction 0 (R61, R6). -/
theorem test_decode_enc :
    decode (1#1 ++ 0#1 ++ (0#1 ++ 0b01111111110#11 ++ 0#52)) = .enc 0x3FE0000000000000#64 := by decide

/-- req_valid = 1, req_op = 1, ignored bits all 1, r = 1, g = 2, b = 3, a = 4 (R62). -/
theorem test_decode_dec :
    decode (1#1 ++ 1#1 ++ (0xFFFFFFFF#32 ++ 0b00000001#8 ++ 0b00000010#8 ++ 0b00000011#8 ++ 0b00000100#8)) =
      .dec 1#8 2#8 3#8 4#8 := by decide

/-- The table's numbers (R68): match values and R74's words. -/
theorem test_decodeTableWord :
    decodeTableWord 72 0x00000000000000000 = some .nop ∧ decodeTableWord 72 0x20000000000000000 = some (.enc 0#64) ∧
      decodeTableWord 72 0x30000000080000000 = some (.dec 128#8 0#8 0#8 0#8) := by decide

/-! ### Instructions: one step on a small state -/

/-- A block that has been reset, with this word on the request port. -/
def stateOn (w : RequestWord) : State := driveNext w State.reset

/-- The registers after a step, as the spec's vectors write a state: (valid, op, data, invalid). -/
def regsAfter (s : State) : Option (Bit × Bit × Word64 × Bit) :=
  (nextState? (step s)).bind fun t => t.resp.map fun r => (r.valid, r.op, r.data, r.invalid)

/-- T5: enc 0.5 leaves (1, 0, 0x80000000, 0); P4: floor, not round. -/
theorem test_enc_step :
    regsAfter (stateOn 0x23FE0000000000000#66) = some (1#1, 0#1, 0x0000000080000000#64, 0#1) ∧
      regsAfter (stateOn 0x23FDFFFFFFFFFFFFF#66) = some (1#1, 0#1, 0x000000007FFFFFFF#64, 0#1) := by decide +kernel

/-- E7, E8, E10, E12, E24, E28, E31, E33, E36: edges of ENC. -/
theorem test_enc_edges :
    encFn 0x3DEFFFFFFFFFFFFF#64 = (0x00000000#32, 0#1) ∧ encFn 0x3DF0000000000000#64 = (0x00000001#32, 0#1) ∧
    encFn 0x3F6FFFFFFFFFFFFE#64 = (0x00FFFFFF#32, 0#1) ∧ encFn 0x3FB999999999999A#64 = (0x19999999#32, 0#1) ∧
    encFn 0x3FEFFFFFCA501ACA#64 = (0xFFFFFE52#32, 0#1) ∧ encFn 0x3FF0000000000000#64 = (0xFFFFFE52#32, 0#1) ∧
    encFn 0x7FF0000000000000#64 = (0xFFFFFE52#32, 0#1) ∧ encFn 0x81A56E1FC2F8F359#64 = (0x00000000#32, 0#1) ∧
    encFn 0xFFF0000000000000#64 = (0x00000000#32, 0#1) := by decide +kernel

/-- T7: enc nan leaves the fault state, which is marked (R141). -/
theorem test_enc_nan :
    regsAfter (stateOn 0x27FF8000000000000#66) = some (1#1, 0#1, 0x0000000000000000#64, 1#1) ∧
      (nextState? (step (stateOn 0x27FF8000000000000#66))).map State.faultMark = some (some .respInvalid) := by
  decide +kernel

/-- T2: DEC ignores bits 63:32. -/
theorem test_dec_step :
    regsAfter (stateOn 0x3FFFFFFFF80000000#66) = some (1#1, 1#1, 0x3FE0000000000000#64, 0#1) := by decide +kernel

/-- D2, D6, D10, D14, D16: edges of DEC. -/
theorem test_dec_edges :
    decFn 0x00000001#32 = 0x3DF0000000000000#64 ∧ decFn 0x01000001#32 = 0x3F70000010000000#64 ∧
    decFn 0x7FFFFFFF#32 = 0x3FDFFFFFFFC00000#64 ∧ decFn 0xFFFFFE52#32 = 0x3FEFFFFFCA400000#64 ∧
    decFn 0xFFFFFFFF#32 = 0x3FEFFFFFFFE00000#64 := by decide +kernel

/-- A state with these registers and this event next. -/
def stateWith (r : Resp) (e : HostEvent) : State := { resp := some r, host := [e], faultMark := none }

/-- T3: nop ignores the request's other bits and holds the data. -/
theorem test_nop_step :
    regsAfter (stateWith ⟨1#1, 1#1, 0x3FE0000000000000#64, 0#1⟩ (.cycle (requestPins 0x1FFFFFFFFFFFFFFFF#66))) =
      some (0#1, 1#1, 0x3FE0000000000000#64, 0#1) := by decide

/-- R122: nop holds RESP_INVALID too. -/
theorem test_nop_holds_invalid :
    regsAfter (stateWith ⟨1#1, 0#1, 0#64, 1#1⟩ (.cycle (requestPins 0#66))) = some (0#1, 0#1, 0#64, 1#1) := by decide

/-- T4: a reset beats the request on the port. -/
theorem test_reset_beats_request :
    regsAfter (stateWith ⟨0#1, 1#1, 0x3FE0000000000000#64, 0#1⟩
      (.cycle { rst := 1#1, req := requestOfWord 0x23FE0000000000000#66 })) = some (0#1, 0#1, 0#64, 0#1) := by decide

/-- T0, T1: the unreset block refuses a request and takes a reset. -/
theorem test_unreset :
    refusal? (step (driveNext 0x23FE0000000000000#66 State.powerOn)) = some .unreset ∧
      regsAfter { State.powerOn with host := [.cycle resetPins] } = some (0#1, 0#1, 0#64, 0#1) := by decide

/-- T8: the next response overwrites the flag; the mark stays. -/
theorem test_mark_stays :
    (nextState? (step ⟨some ⟨1#1, 0#1, 0#64, 1#1⟩, [.cycle (requestPins 0x30000000080000000#66)],
      some .respInvalid⟩)).map (fun t => (t.resp, t.faultMark)) =
      some (some ⟨1#1, 1#1, 0x3FE0000000000000#64, 0#1⟩, some .respInvalid) := by decide +kernel

/-- R64: the response word of the state of T5 is {1, 0, 0, 0x0000000080000000}. -/
theorem test_responseWord : responseWord ⟨1#1, 0#1, 0x80000000#64, 0#1⟩ = 0x40000000080000000#67 := by decide

/-! ### The assembler -/

/-- P1's lines drive P1's request words; comments and blank lines take no cycle (R71). -/
theorem test_assemble_P1 :
    (assemble "reset ; P1\nenc 0.1\n\ndec 25, 153, 153, 153\nnop\n").map
        (fun ps => ps.map fun p => (p.rst, requestWord p.req)) =
      .ok [(1#1, 0x00000000000000000#66), (0#1, 0x23FB999999999999A#66), (0#1, 0x30000000019999999#66),
        (0#1, 0x00000000000000000#66)] := by decide +kernel

/-- R72, R73: -inf, nan, -0.0, raw bits, decw and hexadecimal channels. -/
theorem test_assemble_literals :
    (assemble "enc -inf\nenc nan\nenc -0.0\nenc 0x3FE0000000000000\ndecw 0xFFFFFE52\ndec 0xFF,255,0xfe,82").map
        (fun ps => ps.map fun p => requestWord p.req) =
      .ok [0x2FFF0000000000000#66, 0x27FF8000000000000#66, 0x28000000000000000#66, 0x23FE0000000000000#66,
        0x300000000FFFFFE52#66, 0x300000000FFFFFE52#66] := by decide +kernel

/-- R72: refused by name, with the line. -/
theorem test_assemble_refuses :
    assemble "nop\ndec 256, 0, 0, 0" = .error ⟨2, .channelOutOfRange⟩ ∧
    assemble "enc 0x123" = .error ⟨1, .scalarDigits⟩ ∧ assemble "nop\n\nENC 0.5" = .error ⟨3, .spelling⟩ ∧
    assemble "dec 0, 0, 0, 0x100" = .error ⟨1, .channelDigits⟩ ∧ assemble "nop 0" = .error ⟨1, .idleCount⟩ ∧ assemble "decw 0x123456789" = .error ⟨1, .packedDigits⟩ := by
  decide +kernel

/-! ### Witnesses: the hypotheses of the statements can be met -/

theorem witness_DecodeOfEncodeGivesTheInstructionBack : Instr.wellFormed (.dec 0#8 255#8 0#8 255#8) = true := by decide

theorem witness_EveryRequestWordMatchesExactlyItsRow :
    (0x1FFFFFFFFFFFFFFFF#66).getLsbD 65 = false ∧
    ((0x2FFFFFFFFFFFFFFFF#66).getLsbD 65 = true ∧ (0x2FFFFFFFFFFFFFFFF#66).getLsbD 64 = false) ∧
    ((0x30000000000000000#66).getLsbD 65 = true ∧ (0x30000000000000000#66).getLsbD 64 = true) := by decide

/-- 2^53 + 1 lies half way between 2^53 and 2^53 + 2. -/
theorem witness_RoundingIsToTheNearestTiesToEven :
    |(2 ^ 53 + 1 : ℚ)| < 2 ^ 1024 - 2 ^ 970 ∧
    valueOf (fl64 (2 ^ 53 + 1)) = some (.real (2 ^ 53)) ∧ valueOf 0x4340000000000001#64 = some (.real (2 ^ 53 + 2)) ∧
    |(2 ^ 53 : ℚ) - (2 ^ 53 + 1)| = |(2 ^ 53 + 2 : ℚ) - (2 ^ 53 + 1)| ∧ (2 ^ 53 : ℚ) ≠ 2 ^ 53 + 2 := by
  decide +kernel

/-- The largest finite number and +∞; the largest subnormal and the smallest normal number. -/
theorem witness_OrderOfNonNegativePatternsIsTheirBitOrder :
    isNaN 0x7FEFFFFFFFFFFFFF#64 = false ∧ isNaN 0x7FF0000000000000#64 = false ∧
    signOf 0x7FEFFFFFFFFFFFFF#64 = 0#1 ∧ signOf 0x7FF0000000000000#64 = 0#1 ∧
    valueLt 0x7FEFFFFFFFFFFFFF#64 0x7FF0000000000000#64 = true ∧
    valueLt 0x000FFFFFFFFFFFFF#64 0x0010000000000000#64 = true := by decide +kernel

/-- One operand for each clause, at its edge: the smallest negative, CLAMP_HI + 1 ulp, CLAMP_HI itself. -/
theorem witness_ClampIsIntoTheClosedInterval :
    (isNaN 0x8000000000000001#64 = false ∧ valueLt 0x8000000000000001#64 0#64 = true) ∧
    (isNaN 0x3FEFFFFFCA501ACC#64 = false ∧ valueLt Config.clampHi 0x3FEFFFFFCA501ACC#64 = true) ∧
    (valueLt Config.clampHi 0#64 = false ∧ valueLt Config.clampHi Config.clampHi = false) := by decide +kernel

/-- 1 − 2^-53 and −0.0. -/
theorem witness_DigitStepIsExact :
    (valueOf 0x3FEFFFFFFFFFFFFF#64 = some (.real (1 - 1 / 2 ^ 53)) ∧ (0 : ℚ) ≤ 1 - 1 / 2 ^ 53 ∧
      (1 - 1 / 2 ^ 53 : ℚ) < 1) ∧
    (valueOf 0x8000000000000000#64 = some (.real 0) ∧ (0 : ℚ) ≤ 0 ∧ (0 : ℚ) < 1) := by decide +kernel

theorem witness_EncIsTheFloorForEveryClampBound :
    valueOf 0x3FE0000000000000#64 = some (.real (1 / 2)) ∧ (0 : ℚ) < 1 / 2 ∧ (1 / 2 : ℚ) < 1 ∧
    isNaN 0x7FF0000000000000#64 = false := by decide +kernel

theorem witness_EncAgreesWithItsClosedForms : isNaN 0xFFF0000000000000#64 = false := by decide

theorem witness_EncNeverExceedsItsMaximum :
    isNaN Config.clampHi = false ∧ valueLt Config.clampHi Config.clampHi = false := by decide +kernel

/-- CLAMP_HI for the first clause (RT6), 1 − 2^-53 for the second (RT8). -/
theorem witness_RoundTripErrorIsBelowOneQuantizationStep :
    (valueOf 0x3FEFFFFFCA501ACB#64 = some (.real (9007198354021067 / 2 ^ 53)) ∧
      (0 : ℚ) ≤ 9007198354021067 / 2 ^ 53) ∧
    (valueOf 0x3FEFFFFFFFFFFFFF#64 = some (.real (1 - 1 / 2 ^ 53)) ∧
      (9007198354021067 / 2 ^ 53 : ℚ) < 1 - 1 / 2 ^ 53 ∧ (1 - 1 / 2 ^ 53 : ℚ) < 1) := by decide +kernel

theorem witness_EncIsMonotone :
    isNaN 0x3F6FFFFFFFFFFFFE#64 = false ∧ isNaN 0x3F70000000000000#64 = false ∧
    valueLt 0x3F70000000000000#64 0x3F6FFFFFFFFFFFFE#64 = false := by decide +kernel

/-- CLAMP_HI lies in the last step ENC reaches; 0xFFFFFE53 is the first N it does not. -/
theorem witness_EncIsNeitherInjectiveNorOnto :
    (valueOf Config.clampHi = some (.real (9007198354021067 / 2 ^ 53)) ∧ (0xFFFFFE52#32).toNat ≤ nMax.toNat ∧
      ((0xFFFFFE52#32).toNat : ℚ) / 2 ^ 32 ≤ 9007198354021067 / 2 ^ 53 ∧
      (9007198354021067 / 2 ^ 53 : ℚ) < (((0xFFFFFE52#32).toNat : ℚ) + 1) / 2 ^ 32) ∧
    nMax.toNat < (0xFFFFFE53#32).toNat := by decide +kernel

theorem witness_EncCornerCases :
    (valueOf 0x8000000000000000#64 = some (.real 0) ∧ (0 : ℚ) < 1 / 2 ^ 32) ∧
    (isNaN 0x7FF0000000000000#64 = false ∧ valueLt 0x7FF0000000000000#64 Config.clampHi = false) ∧
    isNaN 0x7FF0000000000001#64 = true := by decide +kernel

theorem witness_NaNOperandCompletesWithTheFlag :
    isNaN 0xFFFFFFFFFFFFFFFF#64 = true ∧ State.reset.resp = some Resp.reset := by decide

theorem witness_DecAgreesWithItsClosedForm : (1#32 : Word32) ≠ 0#32 := by decide

theorem witness_DecResultIsZeroOrPositiveNormalBelowOne : (0xFFFFFFFF#32 : Word32) ≠ 0#32 := by decide

theorem witness_DecIsStrictlyIncreasingAndInjective :
    (0xFFFFFFFE#32).toNat < (0xFFFFFFFF#32).toNat ∧ (254#8).toNat < (255#8).toNat ∧ decFn 7#32 = decFn 7#32 :=
  ⟨by decide, by decide, rfl⟩

theorem witness_DecodingAnEncodedValueNeverOvershoots : isNaN 0x7FF0000000000000#64 = false := by decide

/-- For NopClearsValidAndHoldsTheRest, EncWritesItsResponse, DecWritesItsResponse, RoundTripTakesTwoRequests,
OnceResetTheBlockNeverStopsOnACycle: the block has been reset. -/
theorem witness_blockHasBeenReset : State.reset.resp = some Resp.reset ∧ State.reset.resp ≠ none := by decide

theorem witness_FrameOfEveryInstruction :
    (∃ t, exec .nop State.reset = .next t) ∧ (∃ t, exec (.enc 0#64) State.reset = .next t) ∧
    (∃ t, exec (.dec 0#8 0#8 0#8 0#8) State.reset = .next t) ∧ isNaN 0#64 = false :=
  ⟨⟨_, rfl⟩, ⟨_, rfl⟩, ⟨_, rfl⟩, by decide⟩

theorem witness_UnresetBlockHasNoStepButAReset :
    State.powerOn.resp = none ∧ (instrPins .nop).rst = 0#1 ∧ resetPins.rst = 1#1 := by decide

theorem witness_StepRunsTheDecodedRequest : (instrPins (.enc 0#64)).rst = 0#1 := by decide

theorem witness_StepFollowsTheStepFunctionOfTheSpec :
    resetPins.rst = 1#1 ∧ ((instrPins .nop).rst = 0#1 ∧ State.powerOn.resp = none) ∧
    State.reset.resp = some Resp.reset := by decide

/-- A reset cycle, an idle cycle and a request cycle all complete. -/
theorem witness_RespValidIsOneExactlyAfterARequest :
    (∃ t, step { State.reset with host := [.cycle resetPins] } = .next t) ∧
    (∃ t, step { State.reset with host := [.cycle (instrPins .nop)] } = .next t) ∧
    (∃ t, step { State.reset with host := [.cycle (instrPins (.enc 0#64))] } = .next t) ∧
    (∃ t, step { State.reset with host := [.clockStopped] } = .next t) :=
  ⟨⟨_, rfl⟩, ⟨_, rfl⟩, ⟨_, rfl⟩, ⟨_, rfl⟩⟩

theorem witness_OneResetCycleIsEnough :
    [resetPins] ≠ [] ∧ (∀ q ∈ [resetPins], q.rst = 1#1) ∧ (instrPins (.enc 0#64)).rst = 0#1 ∧
    (instrPins (.enc 0#64)).req.valid = 1#1 := by decide

/-- Both ways: two resets with different requests, and two idle cycles with different ignored bits. -/
theorem witness_InputsThatAreNotSampledHaveNoEffect :
    (resetPins.rst = ({ rst := 1#1, req := requestOf (.enc 0#64) } : Pins).rst ∧ resetPins.rst = 1#1) ∧
    ((requestPins 0x1FFFFFFFFFFFFFFFF#66).rst = (instrPins .nop).rst ∧
      (requestPins 0x1FFFFFFFFFFFFFFFF#66).req.valid = 0#1 ∧ (instrPins .nop).req.valid = 0#1) := by decide

theorem witness_DecIgnoresTheUpperOperandHalf :
    (0xFFFFFFFF80000000#64).extractLsb' 0 32 = (0x0000000080000000#64).extractLsb' 0 32 := by decide

theorem witness_RunEndsWhenTheHostDrivesNothing :
    State.reset.host = [] ∧ step State.reset = .refused .noCycleDriven := ⟨rfl, rfl⟩

theorem witness_ResponseDependsOnlyOnTheRequest :
    (requestOf (.dec 1#8 2#8 3#8 4#8)).valid = 1#1 ∧ State.reset.resp ≠ none ∧
    (stateWith ⟨1#1, 0#1, 0#64, 1#1⟩ .clockStopped).resp ≠ none := by decide

theorem witness_ResponsesComeInRequestOrder :
    State.reset.resp ≠ none ∧
    ∀ p ∈ [instrPins (.enc 0#64), instrPins (.dec 0#8 0#8 0#8 1#8)], p.rst = 0#1 ∧ p.req.valid = 1#1 := by decide

theorem witness_ResponseStaysReadableThroughIdleCycles :
    State.reset.resp ≠ none ∧ (instrPins (.enc 0#64)).rst = 0#1 ∧ (instrPins (.enc 0#64)).req.valid = 1#1 ∧
    ∀ i ∈ [instrPins .nop, requestPins 0x1FFFFFFFFFFFFFFFF#66], i.rst = 0#1 ∧ i.req.valid = 0#1 := by decide

theorem witness_RunThatStartsWithAResetCompletes :
    isRun [.cycle resetPins, .cycle (instrPins (.enc 0#64))] = true := by decide

/-- R129: a run is cycles only, and starts with a reset cycle. -/
theorem test_isRun_refuses :
    isRun [] = false ∧ isRun [.cycle (instrPins .nop)] = false ∧ isRun [.cycle resetPins, .powerLoss] = false ∧
    isRun [.cycle resetPins, .clockStopped] = false := by decide

/-- P2 is no clean run: one cycle of reset and one of enc nan (R129). -/
theorem witness_ObservationOfARunHasOneStateForEachCycle :
    isRun [.cycle resetPins, .cycle (instrPins (.enc 0x7FF8000000000000#64))] = true ∧
    State.powerOn.faultMark = none ∧
    runObservation [.cycle resetPins, .cycle (instrPins (.enc 0x7FF8000000000000#64))] State.powerOn =
      some [some Resp.reset, some ⟨1#1, 0#1, 0#64, 1#1⟩] := by decide +kernel

/-- Each way a step answers a next state, from a state that meets the invariant. -/
theorem witness_EveryStepKeepsTheStateInvariant :
    (stateInv (stateOn 0#66) = true ∧ (nextState? (step (stateOn 0#66))).isSome = true) ∧
    (stateInv (stateOn 0x27FF8000000000000#66) = true ∧
      (nextState? (step (stateOn 0x27FF8000000000000#66))).isSome = true) ∧
    (stateInv (stateWith Resp.reset .powerLoss) = true ∧
      (nextState? (step (stateWith Resp.reset .powerLoss))).isSome = true) := by decide

/-- The invariant says something: a DEC response of 2.0 and an unmarked fault state do not meet it. -/
theorem test_stateInv_refuses :
    stateInv { State.reset with resp := some ⟨1#1, 1#1, 0x4000000000000000#64, 0#1⟩ } = false ∧
    stateInv { State.reset with resp := some ⟨1#1, 0#1, 0#64, 1#1⟩ } = false := by decide

theorem witness_MarkIsStickyAndSetOnlyByAFault :
    (∃ t, step { stateWith Resp.reset (.cycle resetPins) with faultMark := some .respInvalid } = .next t) ∧
    (∃ t, step (stateOn 0x27FF8000000000000#66) = .next t ∧ t.faultMark ≠ none) ∧
    (stateOn 0x27FF8000000000000#66).faultMark = none := by
  refine ⟨⟨_, rfl⟩, ⟨_, rfl, ?_⟩, rfl⟩
  decide

/-- Both ways: one step of enc nan is not clean, one step of nop is. -/
theorem witness_MarkTellsCleanRunsFromTheRest :
    State.reset.faultMark = none ∧ stateShowsFault State.reset = false ∧
    (stateAfter 1 (stateOn 0x27FF8000000000000#66)).isSome = true ∧
    cleanRun 1 (stateOn 0x27FF8000000000000#66) = false ∧
    (stateAfter 1 (stateOn 0#66)).isSome = true ∧ cleanRun 1 (stateOn 0#66) = true := by decide

theorem witness_CopiesOfTheBlockDoNotInteract :
    (∃ y', stepCopy 0 { copies := [stateOn 0#66, State.reset] } = some (.next y')) ∧ (1 : Nat) ≠ 0 :=
  ⟨⟨_, rfl⟩, by decide⟩

/-- A literal of each kind at its edge, and `nop 1`. -/
theorem witness_AssembledStatementsDriveTheirRequestWords :
    (1 : Nat) ≤ 1 ∧ (0 : Nat) < 1 ∧ ((2 : Nat) = 1 ∨ (2 : Nat) = 2) ∧ (1#8 : Byte).toNat < 16 ∧
    channelByte (.hex 2 255) = .ok 255#8 ∧ channelByte (.hex 1 15) = .ok 15#8 ∧
    channelByte (.decimal 255) = .ok 255#8 ∧ channelByte (.decimal 0) = .ok 0#8 := by decide

/-- 256 in decimal, 0x100 in hexadecimal, and an operand of one digit too few or too many. -/
theorem witness_AssemblerRefusesIllFormedLiterals :
    (255 : Nat) < 256 ∧ ((3 : Nat) ≠ 1 ∧ (3 : Nat) ≠ 2) ∧ channelByte (.hex 3 0x100) = .error .channelDigits ∧
    channelByte (.decimal 256) = .error .channelOutOfRange ∧ channelByte (.decimal 255) = .ok 255#8 ∧
    (15 : Nat) ≠ 16 ∧ (9 : Nat) ≠ 8 := by decide

end Sys2Proof.Machine
end

section
/-! PROOFS. The packed quadruple (spec/00_scope.md R10) and the clamp constants (R9). -/

namespace Sys2Proof.Machine

/-! ### Quadruples and their packed form (R10) -/

/-- A concatenation as a number: the high part weighs two to the width of the low part. -/
theorem append_toNat {n m : ℕ} (x : BitVec n) (y : BitVec m) : (x ++ y).toNat = x.toNat * 2 ^ m + y.toNat := by
  rw [BitVec.toNat_append, ← Nat.shiftLeft_add_eq_or_of_lt y.isLt, Nat.shiftLeft_eq]

/-- The number a quadruple packs to (R10). -/
theorem pack_toNat (r g b a : Byte) :
    (pack r g b a).toNat = r.toNat * 2 ^ 24 + g.toNat * 2 ^ 16 + b.toNat * 2 ^ 8 + a.toNat := by
  rw [pack, append_toNat, append_toNat, append_toNat]
  omega

/-- The channel whose weight in the number of the quadruple is 2^start. -/
theorem extract_pack_toNat (r g b a : Byte) (start : ℕ) :
    ((pack r g b a).extractLsb' start 8).toNat =
      (r.toNat * 2 ^ 24 + g.toNat * 2 ^ 16 + b.toNat * 2 ^ 8 + a.toNat) / 2 ^ start % 2 ^ 8 := by
  rw [BitVec.extractLsb'_toNat, Nat.shiftRight_eq_div_pow, pack_toNat]

@[simp] theorem unpack_pack (r g b a : Byte) : unpack (pack r g b a) = ⟨r, g, b, a⟩ := by
  have hr := r.isLt
  have hg := g.isLt
  have hb := b.isLt
  have ha := a.isLt
  rw [unpack, Quad.mk.injEq]
  refine ⟨?_, ?_, ?_, ?_⟩ <;>
    exact BitVec.eq_of_toNat_eq (by rw [extract_pack_toNat]; omega)

@[simp] theorem pack_unpack (n : Word32) : pack (unpack n).r (unpack n).g (unpack n).b (unpack n).a = n := by
  rw [unpack, pack_bytes, BitVec.extractLsb'_eq_self]

/-- Settles O6: each direction is one of the two inverses, and the number is the weighted sum of the channels. -/
theorem packAndUnpackAreInverse : Obligations.PackAndUnpackAreInverse :=
  ⟨fun r g b a => ⟨unpack_pack r g b a, pack_toNat r g b a⟩, fun n => ⟨pack_unpack n, rfl⟩⟩

/-! ### The constants of R9 -/

theorem valueOf_eps : valueOf Config.eps = some (.real (944473296573929 / 2 ^ 73)) := by decide +kernel

theorem valueOf_clampHi : valueOf Config.clampHi = some (.real (9007198354021067 / 2 ^ 53)) := by decide +kernel

/-- The exact 1 − val(EPS) rounds to CLAMP_HI (R9, R7). -/
theorem fl64_one_sub_eps : fl64 (1 - 944473296573929 / 2 ^ 73) = Config.clampHi := by decide +kernel

/-- 1 − EPS in binary64 arithmetic (R9): the operands are exact, so one rounding is all that happens. -/
theorem sub64_one_eps : sub64 (to64 1) Config.eps = Config.clampHi := by
  have h1 : valueOf (to64 1) = some (.real 1) := by simpa using valueOf_to64 (n := 1) (by norm_num)
  rw [sub64, arith64_of_real h1 valueOf_eps rfl, fl64_one_sub_eps]

/-- Settles O10: the roundings and the values are computed, the operation is reduced to its rounding. -/
theorem clampConstantsAreRoundedFromTheDecimalLiteral :
    Obligations.ClampConstantsAreRoundedFromTheDecimalLiteral := by
  refine ⟨?_, valueOf_eps, fl64_one_sub_eps, sub64_one_eps, valueOf_clampHi, ?_, ?_, rfl, rfl⟩
  · decide +kernel
  · norm_num
  · rw [abs_lt]
    constructor <;> norm_num

end Sys2Proof.Machine
end

section
/-! PROOFS. The order of the values of patterns with sign 0 (spec/00_scope.md R6). -/

namespace Sys2Proof.Machine

/-! ### The order of patterns (R6) -/

/-- The absolute value of a finite pattern in units of 2^(−1074), the last place of the subnormals (R6). -/
def unitsOf (f : F64) : ℕ :=
  if exponentOf f = 0 then fractionOf f else (2 ^ 52 + fractionOf f) * 2 ^ (exponentOf f - 1)

theorem fractionOf_lt (f : F64) : fractionOf f < 2 ^ 52 := (f.extractLsb' 0 52).isLt

theorem exponentOf_lt (f : F64) : exponentOf f < 2 ^ 11 := (f.extractLsb' 52 11).isLt

theorem magnitudeOf_eq_units (f : F64) : magnitudeOf f = (unitsOf f : ℚ) * 2 ^ (-1074 : ℤ) := by
  unfold magnitudeOf unitsOf
  split
  · rfl
  · rename_i he
    obtain ⟨k, hk⟩ := Nat.exists_eq_succ_of_ne_zero he
    have hexp : ((k.succ : ℕ) : ℤ) - 1075 = (k : ℤ) + -1074 := by push_cast; ring
    rw [hk, hexp, zpow_add₀ two_ne_zero, zpow_natCast, Nat.succ_sub_one, Nat.cast_mul, Nat.cast_pow, Nat.cast_two,
      mul_assoc]

/-- A pattern lies below the binade that follows its exponent field. -/
theorem unitsOf_lt (f : F64) : unitsOf f < 2 ^ 52 * 2 ^ exponentOf f := by
  have hM := fractionOf_lt f
  unfold unitsOf
  split
  · rename_i he
    simpa [he] using hM
  · rename_i he
    obtain ⟨k, hk⟩ := Nat.exists_eq_succ_of_ne_zero he
    calc (2 ^ 52 + fractionOf f) * 2 ^ (exponentOf f - 1)
        < 2 ^ 53 * 2 ^ k := by rw [hk]; exact Nat.mul_lt_mul_of_pos_right (by omega) (by positivity)
      _ = 2 ^ 52 * 2 ^ exponentOf f := by rw [hk, ← pow_add, ← pow_add]; congr 1; omega

/-- A normal pattern is not below its binade. -/
theorem le_unitsOf {f : F64} (he : exponentOf f ≠ 0) : 2 ^ 52 * 2 ^ (exponentOf f - 1) ≤ unitsOf f := by
  rw [unitsOf, if_neg he]
  exact Nat.mul_le_mul_right _ (Nat.le_add_right _ _)

/-- The order by exponent field, then by fraction, is the order of the absolute values. -/
theorem unitsOf_lt_unitsOf {a b : F64}
    (h : exponentOf a < exponentOf b ∨ exponentOf a = exponentOf b ∧ fractionOf a < fractionOf b) :
    unitsOf a < unitsOf b := by
  obtain hE | ⟨hE, hM⟩ := h
  · calc unitsOf a < 2 ^ 52 * 2 ^ exponentOf a := unitsOf_lt a
      _ ≤ 2 ^ 52 * 2 ^ (exponentOf b - 1) := Nat.mul_le_mul_left _ (Nat.pow_le_pow_right two_pos (by omega))
      _ ≤ unitsOf b := le_unitsOf (by omega)
  · unfold unitsOf
    rw [hE]
    split
    · exact hM
    · exact Nat.mul_lt_mul_of_pos_right (by omega) (by positivity)

/-- The number of a pattern with sign 0 is its two other fields, side by side (R6). -/
theorem toNat_of_sign_zero {f : F64} (hs : signOf f = 0#1) : f.toNat = exponentOf f * 2 ^ 52 + fractionOf f := by
  have h63 : f.toNat / 2 ^ 63 % 2 = 0 := by
    rw [← Nat.shiftRight_eq_div_pow]
    exact (BitVec.extractLsb'_toNat 63 1 f).symm.trans (congrArg BitVec.toNat hs)
  have hf := f.isLt
  simp only [exponentOf, fractionOf, BitVec.extractLsb'_toNat, Nat.shiftRight_eq_div_pow]
  omega

/-- For finite patterns with sign 0 the order of the bits is the order of the absolute values. -/
theorem unitsOf_lt_iff {a b : F64} (ha : signOf a = 0#1) (hb : signOf b = 0#1) :
    unitsOf a < unitsOf b ↔ a.toNat < b.toNat := by
  have hMa := fractionOf_lt a
  have hMb := fractionOf_lt b
  rw [toNat_of_sign_zero ha, toNat_of_sign_zero hb]
  constructor
  · intro h
    by_contra hle
    have hcases : (exponentOf b < exponentOf a ∨ exponentOf b = exponentOf a ∧ fractionOf b < fractionOf a) ∨
        exponentOf a = exponentOf b ∧ fractionOf a = fractionOf b := by omega
    obtain hlt | ⟨hE, hM⟩ := hcases
    · exact absurd (unitsOf_lt_unitsOf hlt) (by omega)
    · exact absurd h (by simp [unitsOf, hE, hM])
  · intro h
    exact unitsOf_lt_unitsOf (by omega)

/-- The fields of an infinity (R6). -/
theorem isInfinite_iff {f : F64} : isInfinite f = true ↔ exponentOf f = 2047 ∧ fractionOf f = 0 := by
  simp [isInfinite]

/-- What is neither a NaN nor an infinity has an exponent field below 2047 (R6). -/
theorem exponentOf_lt_of_finite {f : F64} (hn : isNaN f = false) (hi : isInfinite f = false) :
    exponentOf f < 2047 := by
  have hE := exponentOf_lt f
  have hne : exponentOf f ≠ 2047 := by
    intro he
    cases h0 : fractionOf f == 0
    · simp [isNaN, he, bne, h0] at hn
    · simp [isInfinite, he, h0] at hi
  omega

/-- The value of a finite pattern with sign 0 (R6). -/
theorem valueOf_of_finite {f : F64} (hn : isNaN f = false) (hi : isInfinite f = false) (hs : signOf f = 0#1) :
    valueOf f = some (.real ((unitsOf f : ℚ) * 2 ^ (-1074 : ℤ))) := by
  simp [valueOf, hn, hi, hs, magnitudeOf_eq_units]

/-- The value of an infinite pattern with sign 0 (R6). -/
theorem valueOf_of_infinite {f : F64} (hi : isInfinite f = true) (hs : signOf f = 0#1) :
    valueOf f = some .posInf := by
  obtain ⟨hE, hM⟩ := isInfinite_iff.mp hi
  simp [valueOf, isNaN, hi, hs, hM]

theorem valueLt_eq {a b : F64} {x y : Ext} (ha : valueOf a = some x) (hb : valueOf b = some y) :
    valueLt a b = extLt x y := by
  rw [valueLt, ha, hb]

theorem valueLt_iff_toNat_lt {a b : F64} (hna : isNaN a = false) (hnb : isNaN b = false) (hsa : signOf a = 0#1)
    (hsb : signOf b = 0#1) : valueLt a b = true ↔ a.toNat < b.toNat := by
  have ha := toNat_of_sign_zero hsa
  have hb := toNat_of_sign_zero hsb
  have hMa := fractionOf_lt a
  have hMb := fractionOf_lt b
  cases hia : isInfinite a <;> cases hib : isInfinite b
  case false.false =>
    rw [valueLt_eq (valueOf_of_finite hna hia hsa) (valueOf_of_finite hnb hib hsb), ← unitsOf_lt_iff hsa hsb, extLt,
      decide_eq_true_iff, mul_lt_mul_iff_left₀ (by positivity), Nat.cast_lt]
  case false.true =>
    have hEa := exponentOf_lt_of_finite hna hia
    obtain ⟨hEb, -⟩ := isInfinite_iff.mp hib
    rw [valueLt_eq (valueOf_of_finite hna hia hsa) (valueOf_of_infinite hib hsb)]
    exact iff_of_true rfl (by omega)
  case true.false =>
    have hEb := exponentOf_lt_of_finite hnb hib
    obtain ⟨hEa, -⟩ := isInfinite_iff.mp hia
    rw [valueLt_eq (valueOf_of_infinite hia hsa) (valueOf_of_finite hnb hib hsb)]
    exact iff_of_false Bool.false_ne_true (by omega)
  case true.true =>
    obtain ⟨hEa, hMa0⟩ := isInfinite_iff.mp hia
    obtain ⟨hEb, hMb0⟩ := isInfinite_iff.mp hib
    rw [valueLt_eq (valueOf_of_infinite hia hsa) (valueOf_of_infinite hib hsb)]
    exact iff_of_false Bool.false_ne_true (by omega)

/-- Settles O9: finite patterns are counts of 2^(−1074) in the order of their bits, infinity stands above them, and the two
zeros have one value. -/
theorem orderOfNonNegativePatternsIsTheirBitOrder : Obligations.OrderOfNonNegativePatternsIsTheirBitOrder :=
  ⟨fun _ _ hna hnb hsa hsb => valueLt_iff_toNat_lt hna hnb hsa hsb, by decide +kernel, by decide +kernel⟩

end Sys2Proof.Machine
end

section
/-! PROOFS. Rounding to the nearest value, ties to even (spec/00_scope.md R7). -/

namespace Sys2Proof.Machine

/-! ### The nearest integer (R7) -/

/-- The rounded integer is at most one half away, and even when it is exactly one half away. -/
theorem roundHalfEven_spec (y : ℚ) :
    |(roundHalfEven y : ℚ) - y| ≤ 1 / 2 ∧ (|(roundHalfEven y : ℚ) - y| = 1 / 2 → roundHalfEven y % 2 = 0) := by
  have h0 : 0 ≤ y - ⌊y⌋ := sub_nonneg.mpr (Int.floor_le y)
  have h1 : y - ⌊y⌋ < 1 := by linarith [Int.lt_floor_add_one y]
  have hdown : |((⌊y⌋ : ℤ) : ℚ) - y| = y - ⌊y⌋ := by rw [abs_sub_comm, abs_of_nonneg h0]
  have hup : |((⌊y⌋ + 1 : ℤ) : ℚ) - y| = 1 - (y - ⌊y⌋) := by
    push_cast
    rw [abs_of_nonneg (by linarith)]
    ring
  unfold roundHalfEven
  split
  · rw [hdown]
    exact ⟨by linarith, fun h => by linarith⟩
  split
  · rw [hup]
    exact ⟨by linarith, fun h => by linarith⟩
  split
  · rw [hdown]
    exact ⟨by linarith, fun _ => ‹_›⟩
  · rw [hup]
    exact ⟨by linarith, fun _ => by omega⟩

/-- No integer is nearer than the rounded one, and where another is as near the rounded one is even. -/
theorem roundHalfEven_nearest (y : ℚ) (k : ℤ) :
    |(roundHalfEven y : ℚ) - y| ≤ |k - y| ∧
      (|(roundHalfEven y : ℚ) - y| = |k - y| → roundHalfEven y ≠ k → roundHalfEven y % 2 = 0) := by
  obtain ⟨herr, htie⟩ := roundHalfEven_spec y
  obtain heq | hne := eq_or_ne (roundHalfEven y) k
  · exact ⟨by rw [heq], fun _ h => absurd heq h⟩
  · have hapart : (1 : ℚ) ≤ |(roundHalfEven y : ℚ) - k| := by
      have : 1 ≤ |roundHalfEven y - k| := Int.one_le_abs (sub_ne_zero.mpr hne)
      exact_mod_cast this
    have htri := abs_sub_le (roundHalfEven y : ℚ) y k
    rw [abs_sub_comm y] at htri
    exact ⟨by linarith, fun h _ => htie (by linarith)⟩

/-- Rounding a number between two integers stays between them. -/
theorem roundHalfEven_bounds {y : ℚ} {a b : ℤ} (ha : a ≤ y) (hb : y < b + 1 / 2) :
    a ≤ roundHalfEven y ∧ roundHalfEven y ≤ b := by
  obtain ⟨hlo, hhi⟩ := abs_le.mp (roundHalfEven_spec y).1
  constructor
  · by_contra hlt
    have : (roundHalfEven y : ℚ) + 1 ≤ a := by exact_mod_cast not_le.mp hlt
    linarith
  · by_contra hgt
    have : (b : ℚ) + 1 ≤ roundHalfEven y := by exact_mod_cast not_le.mp hgt
    linarith

/-! ### The last place (R6, R7) -/

/-- A positive number is less than 2^53 last places, and not less than 2^52 unless the last place is the subnormals'. -/
theorem lastPlaceOf_spec {x : ℚ} (hx : 0 < x) :
    x < 2 ^ 53 * 2 ^ lastPlaceOf x ∧ (-1074 < lastPlaceOf x → 2 ^ 52 * (2 : ℚ) ^ lastPlaceOf x ≤ x) := by
  obtain ⟨hlo, hhi⟩ := binadeOf_spec hx
  have hpow (n : ℕ) : (2 : ℚ) ^ n * 2 ^ lastPlaceOf x = 2 ^ (n + lastPlaceOf x) := by
    rw [zpow_add₀ two_ne_zero, zpow_natCast]
  rw [hpow, hpow]
  constructor
  · refine hhi.trans_le (zpow_le_zpow_right₀ one_le_two ?_)
    unfold lastPlaceOf
    omega
  · intro ht
    refine le_trans (zpow_le_zpow_right₀ one_le_two ?_) hlo
    unfold lastPlaceOf at ht ⊢
    omega

/-- What rounds to a finite number has its last place at 2^971 or below. -/
theorem lastPlaceOf_le {x : ℚ} (hx : 0 < x) (hmax : x < 2 ^ 1024 - 2 ^ 970) : lastPlaceOf x ≤ 971 := by
  obtain ⟨hlo, -⟩ := binadeOf_spec hx
  by_contra hc
  have hk : (1024 : ℤ) ≤ binadeOf x := by unfold lastPlaceOf at hc; omega
  have hpow : (2 : ℚ) ^ 1024 ≤ x := by
    rw [← zpow_natCast]
    exact (zpow_le_zpow_right₀ one_le_two hk).trans hlo
  exact absurd (hmax.trans_le (sub_le_self _ (by positivity))) (not_lt.mpr hpow)

/-- With the highest last place, what rounds to a finite number is more than half a place below 2^53 places. -/
theorem lt_of_lastPlaceOf_eq {x : ℚ} (hmax : x < 2 ^ 1024 - 2 ^ 970) : x < (2 ^ 53 - 1 / 2) * 2 ^ (971 : ℤ) := by
  have h971 : (2 : ℚ) ^ (971 : ℤ) = 2 * 2 ^ 970 := by rw [← pow_succ', ← zpow_natCast]; rfl
  have h1024 : (2 : ℚ) ^ 1024 = 2 ^ 54 * 2 ^ 970 := by rw [← pow_add]
  rw [h1024] at hmax
  rw [h971]
  generalize (2 : ℚ) ^ 970 = p at *
  linarith

/-! ### The pattern of a rounded number (R6, R7) -/

/-- The value of the pattern that `fl64Abs` composes from the last place 2^(u − 1074) and M of them, whatever the class. -/
theorem valueOf_composed {u M : ℕ} (hlow : u = 0 ∨ 2 ^ 52 ≤ M) (hM : M ≤ 2 ^ 53)
    (hfin : u * 2 ^ 52 + M < 2047 * 2 ^ 52) :
    valueOf (BitVec.ofNat 64 (u * 2 ^ 52 + M)) = some (.real ((M : ℚ) * 2 ^ ((u : ℤ) - 1074))) := by
  obtain hsub | hnorm := Nat.lt_or_ge M (2 ^ 52)
  · obtain rfl : u = 0 := by omega
    rw [valueOf_of_nat 0 M (by norm_num) hsub, if_pos rfl]
    norm_num
  obtain hcarry | hbelow := hM.eq_or_lt
  · have hn : u * 2 ^ 52 + M = (u + 2) * 2 ^ 52 + 0 := by omega
    have hexp : ((u + 2 : ℕ) : ℤ) - 1075 = 1 + ((u : ℤ) - 1074) := by push_cast; ring
    rw [hn, valueOf_of_nat (u + 2) 0 (by omega) (by norm_num), if_neg (by omega), hexp, zpow_add₀ two_ne_zero, hcarry,
      ← mul_assoc]
    norm_num
  · obtain ⟨m, rfl⟩ := Nat.exists_eq_add_of_le hnorm
    have hn : u * 2 ^ 52 + (2 ^ 52 + m) = (u + 1) * 2 ^ 52 + m := by ring
    have hexp : ((u + 1 : ℕ) : ℤ) - 1075 = (u : ℤ) - 1074 := by push_cast; ring
    rw [hn, valueOf_of_nat (u + 1) m (by omega) (by omega), if_neg (by omega), hexp]

theorem fractionOf_composed (u M : ℕ) : fractionOf (BitVec.ofNat 64 (u * 2 ^ 52 + M)) % 2 = M % 2 := by
  rw [fractionOf, field_toNat]
  omega

/-- How many last places a positive number rounds to: a number of 53 bits, or 2^53 where the rounding carries. -/
theorem roundedPlaces_bounds {x : ℚ} (hx : 0 < x) (hmax : x < 2 ^ 1024 - 2 ^ 970) :
    0 ≤ roundHalfEven (x / 2 ^ lastPlaceOf x) ∧ roundHalfEven (x / 2 ^ lastPlaceOf x) ≤ 2 ^ 53 ∧
      (-1074 < lastPlaceOf x → 2 ^ 52 ≤ roundHalfEven (x / 2 ^ lastPlaceOf x)) ∧
      (lastPlaceOf x = 971 → roundHalfEven (x / 2 ^ lastPlaceOf x) ≤ 2 ^ 53 - 1) := by
  obtain ⟨hhi, hlo⟩ := lastPlaceOf_spec hx
  have htop : lastPlaceOf x = 971 → x < (2 ^ 53 - 1 / 2) * 2 ^ lastPlaceOf x := fun h => by
    rw [h]
    exact lt_of_lastPlaceOf_eq hmax
  have hunit : (0 : ℚ) < 2 ^ lastPlaceOf x := by positivity
  rw [← div_lt_iff₀ hunit] at hhi htop
  rw [← le_div_iff₀ hunit] at hlo
  have hy0 : 0 ≤ x / 2 ^ lastPlaceOf x := by positivity
  generalize x / 2 ^ lastPlaceOf x = y at *
  have below53 : y < ((2 ^ 53 : ℤ) : ℚ) + 1 / 2 := by push_cast; linarith
  have nonneg : ((0 : ℤ) : ℚ) ≤ y := by simpa using hy0
  refine ⟨(roundHalfEven_bounds nonneg below53).1, (roundHalfEven_bounds nonneg below53).2, fun h => ?_, fun h => ?_⟩
  · exact (roundHalfEven_bounds (by push_cast; exact hlo h) below53).1
  · exact (roundHalfEven_bounds nonneg (by have := htop h; push_cast; linarith)).2

/-- fl64 of a positive number that rounds to a finite one is its rounded number of last places (R7). -/
theorem fl64Abs_composed {x : ℚ} (hx : 0 < x) (hmax : x < 2 ^ 1024 - 2 ^ 970) :
    valueOf (fl64Abs x) = some (.real (roundHalfEven (x / 2 ^ lastPlaceOf x) * 2 ^ lastPlaceOf x)) ∧
      (fractionOf (fl64Abs x) : ℤ) % 2 = roundHalfEven (x / 2 ^ lastPlaceOf x) % 2 := by
  have ht971 := lastPlaceOf_le hx hmax
  have ht1074 : -1074 ≤ lastPlaceOf x := le_max_right _ _
  obtain ⟨hM0, hM53, hM52, hMtop⟩ := roundedPlaces_bounds hx hmax
  obtain ⟨u, hu⟩ : ∃ u : ℕ, lastPlaceOf x + 1074 = u := Int.eq_ofNat_of_zero_le (by omega)
  obtain ⟨M, hM⟩ := Int.eq_ofNat_of_zero_le hM0
  have hfin : u * 2 ^ 52 + M < 2047 * 2 ^ 52 := by omega
  have hfl : fl64Abs x = BitVec.ofNat 64 (u * 2 ^ 52 + M) := by
    have hinf : posInfBits.toNat = 2047 * 2 ^ 52 := rfl
    simp only [fl64Abs, if_neg hx.ne', hu, hM, Int.toNat_natCast, hinf, Nat.min_eq_left hfin.le]
  have hparity := fractionOf_composed u M
  rw [hfl, hM, valueOf_composed (by omega) (by omega) hfin, show (u : ℤ) - 1074 = lastPlaceOf x by omega]
  exact ⟨by rw [Int.cast_natCast], by omega⟩

/-! ### The nearest value (R7) -/

/-- The numbers of 53 bits times a power of two, not below the subnormals' last place: every finite binary64 value is one
(R6). -/
def IsRepresentable (y : ℚ) : Prop := ∃ (m : ℕ) (q : ℤ), m < 2 ^ 53 ∧ -1074 ≤ q ∧ |y| = (m : ℚ) * 2 ^ q

theorem isRepresentable_of_valueOf {g : F64} {y : ℚ} (h : valueOf g = some (.real y)) : IsRepresentable y := by
  obtain ⟨m, q, hm, hq, -, hy⟩ := valueOf_real_form h
  have habs : |(m : ℚ) * 2 ^ q| = m * 2 ^ q := abs_of_nonneg (by positivity)
  refine ⟨m, q, hm, hq, ?_⟩
  rw [hy]
  split
  · rw [abs_neg, habs]
  · exact habs

theorem IsRepresentable.neg {y : ℚ} (h : IsRepresentable y) : IsRepresentable (-y) := by
  unfold IsRepresentable
  rwa [abs_neg]

/-- Around a positive x, a representable number is a whole number of last places or lies below such a number that is not
above x. -/
theorem IsRepresentable.places_or_below {x y : ℚ} (hx : 0 < x) (hy : IsRepresentable y) :
    ∃ k : ℤ, y = k * 2 ^ lastPlaceOf x ∨ y < k * 2 ^ lastPlaceOf x ∧ k * 2 ^ lastPlaceOf x ≤ x := by
  obtain ⟨m, q, hm, hq, habs⟩ := hy
  obtain hle | hlt := le_or_gt (lastPlaceOf x) q
  · obtain ⟨j, hj⟩ := Int.le.dest hle
    rw [← hj, zpow_add₀ two_ne_zero, zpow_natCast] at habs
    obtain hpos | hneg := abs_choice y
    · exact ⟨m * 2 ^ j, .inl (by rw [← hpos, habs]; push_cast; ring)⟩
    · exact ⟨-(m * 2 ^ j), .inl (by rw [← neg_eq_iff_eq_neg.mpr hneg, habs]; push_cast; ring)⟩
  · refine ⟨2 ^ 52, .inr ⟨?_, by push_cast; exact (lastPlaceOf_spec hx).2 (by omega)⟩⟩
    have hm' : (m : ℚ) < 2 ^ 53 := by exact_mod_cast hm
    calc y ≤ m * 2 ^ q := habs ▸ le_abs_self y
      _ < 2 ^ 53 * 2 ^ q := mul_lt_mul_of_pos_right hm' (by positivity)
      _ = 2 ^ 52 * 2 ^ (q + 1) := by rw [zpow_add₀ two_ne_zero, zpow_one]; ring
      _ ≤ 2 ^ 52 * 2 ^ lastPlaceOf x :=
          mul_le_mul_of_nonneg_left (zpow_le_zpow_right₀ one_le_two (by omega)) (by positivity)
      _ = _ := by push_cast; rfl

/-- `v`, whose pattern has the fraction `M`, is a nearest representable number to `e`, and `M` is even where another is as
near. -/
def IsNearestEven (e v : ℚ) (M : ℕ) : Prop :=
  ∀ y : ℚ, IsRepresentable y → |v - e| ≤ |y - e| ∧ (|v - e| = |y - e| → v ≠ y → M % 2 = 0)

theorem IsNearestEven.neg {e v : ℚ} {M : ℕ} (h : IsNearestEven e v M) : IsNearestEven (-e) (-v) M := by
  intro y hy
  have hflip (z : ℚ) : |-z - -e| = |z - e| := by rw [neg_sub_neg, abs_sub_comm]
  obtain ⟨hle, htie⟩ := h (-y) hy.neg
  rw [← hflip, ← hflip (-y), neg_neg] at hle htie
  exact ⟨hle, fun heq hne => htie heq (fun hv => hne (by rw [hv, neg_neg]))⟩

/-- The nearest whole number of last places is the nearest representable number. -/
theorem isNearestEven_places {x : ℚ} {M : ℕ} (hx : 0 < x)
    (hM : (M : ℤ) % 2 = roundHalfEven (x / 2 ^ lastPlaceOf x) % 2) :
    IsNearestEven x (roundHalfEven (x / 2 ^ lastPlaceOf x) * 2 ^ lastPlaceOf x) M := by
  intro y hy
  have hunit : (0 : ℚ) < 2 ^ lastPlaceOf x := by positivity
  have hdist (k : ℤ) : |k * 2 ^ lastPlaceOf x - x| = |k - x / 2 ^ lastPlaceOf x| * 2 ^ lastPlaceOf x := by
    rw [← abs_of_pos hunit, ← abs_mul, abs_of_pos hunit, sub_mul, div_mul_cancel₀ _ hunit.ne']
  obtain ⟨k, rfl | ⟨hyk, hkx⟩⟩ := hy.places_or_below hx
  · obtain ⟨hle, htie⟩ := roundHalfEven_nearest (x / 2 ^ lastPlaceOf x) k
    rw [hdist, hdist]
    refine ⟨mul_le_mul_of_nonneg_right hle hunit.le, fun heq hne => ?_⟩
    have := htie (mul_right_cancel₀ hunit.ne' heq) (fun h => hne (by rw [h]))
    omega
  · have hcloser : |roundHalfEven (x / 2 ^ lastPlaceOf x) * 2 ^ lastPlaceOf x - x| < |y - x| := by
      calc _ ≤ |k * 2 ^ lastPlaceOf x - x| := by
            rw [hdist, hdist]
            exact mul_le_mul_of_nonneg_right (roundHalfEven_nearest _ k).1 hunit.le
        _ < |y - x| := by
            rw [abs_of_nonpos (by linarith), abs_of_nonpos (by linarith)]
            linarith
    exact ⟨hcloser.le, fun heq => absurd heq hcloser.ne⟩

theorem fl64Abs_isNearestEven {x : ℚ} (h0 : 0 ≤ x) (hmax : x < 2 ^ 1024 - 2 ^ 970) :
    ∃ v : ℚ, valueOf (fl64Abs x) = some (.real v) ∧ IsNearestEven x v (fractionOf (fl64Abs x)) := by
  obtain rfl | hx := h0.eq_or_lt
  · have hfl : fl64Abs 0 = 0#64 := if_pos rfl
    rw [hfl]
    exact ⟨0, by decide +kernel, fun y _ => ⟨by rw [sub_zero, abs_zero]; exact abs_nonneg _, fun _ _ => rfl⟩⟩
  · obtain ⟨hv, hparity⟩ := fl64Abs_composed hx hmax
    exact ⟨_, hv, isNearestEven_places hx hparity⟩

/-! ### Negative numbers (R6, R7) -/

theorem signOf_fl64Abs (x : ℚ) : signOf (fl64Abs x) = 0#1 := by
  have hsmall : (fl64Abs x).toNat < 2 ^ 63 := by
    have hinf : posInfBits.toNat = 2047 * 2 ^ 52 := rfl
    unfold fl64Abs
    split
    · decide
    · rw [BitVec.toNat_ofNat]
      exact (Nat.mod_le _ _).trans_lt ((Nat.min_le_right _ _).trans_lt (by omega))
  apply BitVec.eq_of_toNat_eq
  rw [signOf, BitVec.extractLsb'_toNat, Nat.shiftRight_eq_div_pow, Nat.div_eq_of_lt hsmall]
  rfl

/-- Setting the sign bit leaves the two other fields alone (R6). -/
theorem fields_sign_or (f : F64) :
    signOf (0x8000000000000000#64 ||| f) = 1#1 ∧ exponentOf (0x8000000000000000#64 ||| f) = exponentOf f ∧
      fractionOf (0x8000000000000000#64 ||| f) = fractionOf f := by
  have hsign : signOf (0x8000000000000000#64 ||| f) = 1#1 ||| signOf f := BitVec.extractLsb'_or ..
  refine ⟨?_, ?_, ?_⟩
  · obtain h | h := bit_cases (signOf f) <;> rw [hsign, h] <;> rfl
  · rw [exponentOf, BitVec.extractLsb'_or]
    exact congrArg BitVec.toNat BitVec.zero_or
  · rw [fractionOf, BitVec.extractLsb'_or]
    exact congrArg BitVec.toNat BitVec.zero_or

/-- Setting the sign bit of a finite pattern with sign 0 negates its value (R6). -/
theorem valueOf_sign_or {f : F64} {v : ℚ} (hs : signOf f = 0#1) (hv : valueOf f = some (.real v)) :
    valueOf (0x8000000000000000#64 ||| f) = some (.real (-v)) := by
  obtain ⟨hsign, hexp, hfrac⟩ := fields_sign_or f
  have hnan : isNaN (0x8000000000000000#64 ||| f) = isNaN f := by rw [isNaN, hexp, hfrac, isNaN]
  have hinf : isInfinite (0x8000000000000000#64 ||| f) = isInfinite f := by rw [isInfinite, hexp, hfrac, isInfinite]
  have hmag : magnitudeOf (0x8000000000000000#64 ||| f) = magnitudeOf f := by rw [magnitudeOf, hexp, hfrac, magnitudeOf]
  cases hn : isNaN f
  case true => simp [valueOf, hn] at hv
  cases hi : isInfinite f
  case true => simp [valueOf, hn, hi, hs] at hv
  have hv' : magnitudeOf f = v := by simpa [valueOf, hn, hi, hs] using hv
  simp [valueOf, hnan, hinf, hmag, hn, hi, hsign, hv']

theorem fl64_isNearestEven {e : ℚ} (hmax : |e| < 2 ^ 1024 - 2 ^ 970) :
    ∃ v : ℚ, valueOf (fl64 e) = some (.real v) ∧ IsNearestEven e v (fractionOf (fl64 e)) := by
  obtain hneg | hpos := lt_or_ge e 0
  · rw [abs_of_neg hneg] at hmax
    obtain ⟨v, hv, hnear⟩ := fl64Abs_isNearestEven (neg_nonneg.mpr hneg.le) hmax
    obtain ⟨-, -, hfrac⟩ := fields_sign_or (fl64Abs (-e))
    rw [fl64, if_pos hneg, hfrac]
    exact ⟨-v, valueOf_sign_or (signOf_fl64Abs _) hv, by simpa using hnear.neg⟩
  · rw [abs_of_nonneg hpos] at hmax
    rw [fl64_of_nonneg hpos]
    exact fl64Abs_isNearestEven hpos hmax

/-- Settles O8: fl64 rounds the number of last places, and the nearest number of last places is the nearest value. -/
theorem roundingIsToTheNearestTiesToEven : Obligations.RoundingIsToTheNearestTiesToEven := by
  intro e he
  obtain ⟨v, hv, hnear⟩ := fl64_isNearestEven he
  exact ⟨v, hv, fun g y hy => hnear y (isRepresentable_of_valueOf hy)⟩

end Sys2Proof.Machine
end

section
/-! PROOFS. The steps of ENC are exact, so ENC with any clamp bound is a floor (spec/40_encoder.md R82 to R86). -/

namespace Sys2Proof.Machine

/-! ### One scale-and-floor step of ENC (R83 to R85) -/

/-- A number of 53 bits times a power of two within the range of the exponents is its own rounding (R7). -/
theorem valueOf_fl64_exact {x : ℚ} {m : ℕ} {q : ℤ} (hx : x = (m : ℚ) * 2 ^ q) (hm : m < 2 ^ 53) (hq : -1074 ≤ q)
    (hq' : q ≤ 971) : valueOf (fl64 x) = some (.real x) := by
  subst hx
  rw [fl64_of_nonneg (by positivity)]
  exact valueOf_fl64Abs m q hm hq hq'

/-- A non-negative binary64 value is a number of 53 bits times a power of two (R6). -/
theorem valueOf_nonneg_form {v : F64} {x : ℚ} (hv : valueOf v = some (.real x)) (h0 : 0 ≤ x) :
    ∃ (m : ℕ) (q : ℤ), m < 2 ^ 53 ∧ -1074 ≤ q ∧ q ≤ 971 ∧ x = (m : ℚ) * 2 ^ q := by
  obtain ⟨m, q, hm, hq, hq', hx⟩ := valueOf_real_form hv
  have hmq : (0 : ℚ) ≤ m * 2 ^ q := by positivity
  split at hx
  · exact ⟨0, 0, by norm_num, by norm_num, by norm_num, by rw [Nat.cast_zero, zero_mul]; linarith⟩
  · exact ⟨m, q, hm, hq, hq', hx⟩

/-- `v` denotes the number `x` of [0, 1): the operand of each of the four steps (R84). -/
def DenotesUnit (v : F64) (x : ℚ) : Prop := valueOf v = some (.real x) ∧ 0 ≤ x ∧ x < 1

section Step
variable {v : F64} {x : ℚ}

/-- A value of [0, 1), scaled by 256, is a number of 53 bits over a power of two (R84). -/
theorem DenotesUnit.scaled_form (h : DenotesUnit v x) :
    ∃ m j : ℕ, m < 2 ^ 53 ∧ j ≤ 1066 ∧ 256 * x = (m : ℚ) * 2 ^ (-(j : ℤ)) := by
  obtain ⟨hv, h0, h1⟩ := h
  obtain ⟨m, q, hm, hq, -, hx⟩ := valueOf_nonneg_form hv h0
  have hscale : 256 * x = (m : ℚ) * 2 ^ (8 + q) := by
    rw [hx, zpow_add₀ two_ne_zero]
    norm_num
    ring
  obtain hneg | hpos := le_total (8 + q) 0
  · exact ⟨m, (-(8 + q)).toNat, hm, by omega, by rw [hscale, Int.toNat_of_nonneg (by omega), neg_neg]⟩
  · obtain ⟨k, hk⟩ := Int.eq_ofNat_of_zero_le hpos
    have hint : 256 * x = ((m * 2 ^ k : ℕ) : ℚ) := by
      rw [hscale, hk, zpow_natCast]
      push_cast
      rfl
    have hsmall : m * 2 ^ k < 256 := by
      rw [← Nat.cast_lt (α := ℚ), ← hint]
      push_cast
      linarith
    exact ⟨m * 2 ^ k, 0, by omega, by omega, by rw [hint, Nat.cast_zero, neg_zero, zpow_zero, mul_one]⟩

/-- Scaling by 256 is exact (R84). -/
theorem DenotesUnit.valueOf_scaled (h : DenotesUnit v x) : valueOf (scaled v) = some (.real (256 * x)) := by
  obtain ⟨m, j, hm, hj, hform⟩ := h.scaled_form
  have h256 : valueOf (to64 256) = some (.real 256) := by simpa using valueOf_to64 (n := 256) (by norm_num)
  rw [scaled, mul64, arith64_of_real h.1 h256 rfl, mul_comm x 256]
  exact valueOf_fl64_exact hform hm (by omega) (by omega)

/-- The digit is the floor of the scaled value: it fits its 8-bit field (R84). -/
theorem DenotesUnit.digitOf_scaled (h : DenotesUnit v x) : ((digitOf (scaled v)).toNat : ℤ) = ⌊256 * x⌋ := by
  have ⟨_, h0, h1⟩ := h
  have hlo : 0 ≤ ⌊256 * x⌋ := Int.floor_nonneg.mpr (by linarith)
  have hhi : ⌊256 * x⌋ < 256 := Int.floor_lt.mpr (by push_cast; linarith)
  rw [digitOf, floor64_of_real h.valueOf_scaled, BitVec.toNat_ofInt]
  omega

/-- The fractional part of a number over a power of two is made of the low bits of the number. -/
theorem fract_mul_two_zpow_neg (m j : ℕ) :
    Int.fract ((m : ℚ) * 2 ^ (-(j : ℤ))) = ((m % 2 ^ j : ℕ) : ℚ) * 2 ^ (-(j : ℤ)) := by
  have h := Int.fract_div_natCast_eq_div_natCast_mod (k := ℚ) (m := m) (n := 2 ^ j)
  rw [Nat.cast_pow, Nat.cast_two] at h
  rw [zpow_neg, zpow_natCast, ← div_eq_mul_inv, h, ← div_eq_mul_inv]

/-- Subtracting the digit is exact (R85): what is left is the fractional part, again a number of [0, 1). -/
theorem DenotesUnit.remainderOf_scaled (h : DenotesUnit v x) :
    DenotesUnit (remainderOf (scaled v)) (Int.fract (256 * x)) := by
  obtain ⟨m, j, hm, hj, hform⟩ := h.scaled_form
  have hdigit : valueOf (to64 (digitOf (scaled v)).toNat) = some (.real (⌊256 * x⌋ : ℤ)) := by
    rw [valueOf_to64 (by have := (digitOf (scaled v)).isLt; omega), ← h.digitOf_scaled, Int.cast_natCast]
  refine ⟨?_, Int.fract_nonneg _, Int.fract_lt_one _⟩
  rw [remainderOf, sub64, arith64_of_real h.valueOf_scaled hdigit rfl, Int.self_sub_floor]
  exact valueOf_fl64_exact (hform ▸ fract_mul_two_zpow_neg m j) ((Nat.mod_le m _).trans_lt hm) (by omega) (by omega)

end Step

/-! ### The four steps of ENC (R83, R86) -/

/-- A number in base 256: the leading digit is that of 256·x, the others those of what the step leaves. -/
theorem floor_mul_pow_succ (x : ℚ) (n : ℕ) :
    ⌊x * 256 ^ (n + 1)⌋ = ⌊256 * x⌋ * 256 ^ n + ⌊Int.fract (256 * x) * 256 ^ n⌋ := by
  have hsplit : x * 256 ^ (n + 1) = ((⌊256 * x⌋ * 256 ^ n : ℤ) : ℚ) + Int.fract (256 * x) * 256 ^ n := by
    rw [← Int.self_sub_floor]
    push_cast
    ring
  rw [hsplit, Int.floor_intCast_add]

/-- ENC of an operand that clamps to a value of [0, 1): its four digits are those of the floor in base 256 (R83, R86). -/
theorem encFnAt_of_clamped {hi f : F64} {x : ℚ} (hn : isNaN f = false) (h : DenotesUnit (clampAt hi f) x) :
    encFnAt hi f = (BitVec.ofInt 32 ⌊x * 2 ^ 32⌋, 0#1) := by
  have h₂ := h.remainderOf_scaled
  have h₃ := h₂.remainderOf_scaled
  have h₄ := h₃.remainderOf_scaled
  have hfloor : ⌊x * 2 ^ 32⌋ = ⌊x * 256 ^ (3 + 1)⌋ := by norm_num
  rw [floor_mul_pow_succ x 3, floor_mul_pow_succ _ 2, floor_mul_pow_succ _ 1, pow_one, pow_one, mul_comm _ (256 : ℚ),
    ← h.digitOf_scaled, ← h₂.digitOf_scaled, ← h₃.digitOf_scaled, ← h₄.digitOf_scaled] at hfloor
  simp only [encFnAt, invalidFlag, hn, Bool.false_eq_true, if_false]
  rw [hfloor, Prod.mk.injEq]
  refine ⟨BitVec.eq_of_toNat_eq ?_, rfl⟩
  rw [pack_toNat, BitVec.toNat_ofInt]
  omega

/-! ### The clamp (R82) -/

theorem valueOf_zero : valueOf 0#64 = some (.real 0) := by decide +kernel

theorem valueLt_real {a b : F64} {x y : ℚ} (ha : valueOf a = some (.real x)) (hb : valueOf b = some (.real y)) :
    valueLt a b = true ↔ x < y := by
  rw [valueLt, ha, hb]
  exact decide_eq_true_iff

theorem exists_valueOf {f : F64} (hn : isNaN f = false) : ∃ e, valueOf f = some e := by
  rw [valueOf, hn, if_neg Bool.false_ne_true]
  split <;> exact ⟨_, rfl⟩

/-- An operand that is neither below 0 nor above a finite bound is a real between the two. -/
theorem valueOf_between {hi f : F64} {h : ℚ} (hh : valueOf hi = some (.real h)) (hn : isNaN f = false)
    (hlo : ¬ valueLt f 0#64 = true) (hup : ¬ valueLt hi f = true) :
    ∃ x : ℚ, valueOf f = some (.real x) ∧ 0 ≤ x ∧ x ≤ h := by
  obtain ⟨e, he⟩ := exists_valueOf hn
  cases e with
  | negInf => exact absurd (by rw [valueLt, he, valueOf_zero]; rfl) hlo
  | posInf => exact absurd (by rw [valueLt, he, hh]; rfl) hup
  | real x =>
    rw [valueLt_real he valueOf_zero, not_lt] at hlo
    rw [valueLt_real hh he, not_lt] at hup
    exact ⟨x, he, hlo, hup⟩

/-- The clamp lands in the closed interval from 0 to its bound (R82). -/
theorem valueOf_clampAt {hi f : F64} {h : ℚ} (hh : valueOf hi = some (.real h)) (h0 : 0 ≤ h) (hn : isNaN f = false) :
    ∃ x : ℚ, valueOf (clampAt hi f) = some (.real x) ∧ 0 ≤ x ∧ x ≤ h := by
  unfold clampAt
  split
  · exact ⟨0, valueOf_zero, le_refl 0, h0⟩
  split
  · exact ⟨h, hh, h0, le_refl h⟩
  · exact valueOf_between hh hn ‹_› ‹_›

/-- Settles O13: the clamp lands in [0, h], below 1, and there each of the four steps is exact. -/
theorem encIsTheFloorForEveryClampBound : Obligations.EncIsTheFloorForEveryClampBound := by
  intro hi h hh h0 h1 f hn
  obtain ⟨x, hx, hx0, hxh⟩ := valueOf_clampAt hh h0.le hn
  exact ⟨x, hx, hx0, hxh, encFnAt_of_clamped hn ⟨hx, hx0, hxh.trans_lt h1⟩⟩

end Sys2Proof.Machine
end

section
/-! PROOFS. What an instruction and a step do to the registers (spec/10_state.md R22 to R33; spec/44_interface_cycle.md
R121, R122). -/

namespace Sys2Proof.Machine

/-! ### The registers after a cycle with rst = 0 (R121, R122) -/

/-- A request of the port as an instruction (R68). -/
theorem pinsInstr_eq (p : Pins) :
    pinsInstr p =
      if p.req.valid = 0#1 then .nop
      else if p.req.op = 0#1 then .enc p.req.operand
      else .dec (p.req.operand.extractLsb' 24 8) (p.req.operand.extractLsb' 16 8) (p.req.operand.extractLsb' 8 8)
        (p.req.operand.extractLsb' 0 8) :=
  decode_requestWord p.req

/-- A cycle without a request idles (R122). -/
theorem instrResp_of_idle {p : Pins} (h : p.req.valid = 0#1) (r : Resp) : instrResp (pinsInstr p) r = idleResp r := by
  rw [pinsInstr_eq, if_pos h, instrResp]

/-- A cycle with a request leaves the response to that request, whatever the registers held (R31, R121). -/
theorem instrResp_of_request {p : Pins} (h : p.req.valid = 1#1) (r : Resp) :
    instrResp (pinsInstr p) r = responseTo p.req := by
  have hvalid : p.req.valid ≠ 0#1 := by rw [h]; decide
  rw [pinsInstr_eq, if_neg hvalid, responseTo]
  split
  · rfl
  · rw [instrResp, decResp, pack_bytes]

/-- RESP_VALID takes the value of req_valid (R24). -/
theorem instrResp_valid (p : Pins) (r : Resp) : (instrResp (pinsInstr p) r).valid = p.req.valid := by
  obtain h | h := bit_cases p.req.valid
  · rw [instrResp_of_idle h, idleResp_valid, h]
  · rw [instrResp_of_request h, responseTo, h]
    split <;> rfl

/-- Only an ENC of a NaN leaves registers that show the fault (R22, R141). -/
theorem respShowsFault_instrResp {i : Instr} {r : Resp} (h : respShowsFault (instrResp i r) = true) :
    ∃ f, i = .enc f ∧ isNaN f = true := by
  cases i with
  | nop => exact absurd h (by simp [instrResp])
  | enc f => exact ⟨f, rfl, by simpa [instrResp] using h⟩
  | dec c₁ c₂ c₃ c₄ => exact absurd h (by simp [instrResp])

/-! ### Frame, outputs and refusals -/

/-- An instruction keeps the mark unless it is an ENC of a NaN (R141). -/
theorem faultMark_of_exec {i : Instr} {s t : State} (h : exec i s = .next t)
    (hi : ∀ f, i = .enc f → isNaN f = false) : t.faultMark = s.faultMark := by
  obtain ⟨r, -, rfl⟩ := exec_eq_next h
  rw [writeResp_faultMark, if_neg]
  intro hfault
  obtain ⟨f, hf, hnan⟩ := respShowsFault_instrResp hfault
  exact absurd hnan (by simp [hi f hf])

/-- Settles O32: an instruction is one write of the response registers, `nop` writes back all but RESP_VALID, and only an
ENC of a NaN writes registers that show the fault. -/
theorem frameOfEveryInstruction : Obligations.FrameOfEveryInstruction := by
  intro i s t h
  have hmark := faultMark_of_exec h
  obtain ⟨r, hr, rfl⟩ := exec_eq_next h
  refine ⟨writeResp_host _ s, ?_, ?_, ?_⟩
  · rintro rfl
    refine ⟨hmark nofun, fun r' hr' => ⟨idleResp r', ?_, rfl, rfl, rfl⟩⟩
    obtain rfl : r = r' := Option.some.inj (hr.symm.trans hr')
    rfl
  · rintro c₁ c₂ c₃ c₄ rfl
    exact hmark nofun
  · rintro f rfl hf
    exact hmark fun g hg => Instr.enc.inj hg ▸ hf

/-- A step on a cycle is a clock edge (R121). -/
theorem step_cycle (p : Pins) (s : State) (rest : List HostEvent) :
    step { s with host := .cycle p :: rest } = clockEdge p { s with host := rest } :=
  rfl

/-- Settles O36: a reset writes RESP_VALID = 0, any other cycle writes req_valid to it, and a stopped clock writes
nothing. -/
theorem respValidIsOneExactlyAfterARequest : Obligations.RespValidIsOneExactlyAfterARequest := by
  refine ⟨?_, ?_, rfl⟩
  · intro s t p rest h
    rw [step_cycle] at h
    obtain hp | hp := bit_cases p.rst
    · rw [clockEdge_run hp] at h
      obtain ⟨r, -, rfl⟩ := exec_eq_next h
      refine ⟨_, writeResp_resp _ _, ?_⟩
      rw [instrResp_valid, hp]
      obtain hv | hv := bit_cases p.req.valid <;> simp [hv]
    · rw [clockEdge_reset hp] at h
      cases h
      exact ⟨Resp.reset, takeReset_resp _, by simp [hp, Resp.reset]⟩
  · intro s t rest h
    cases h
    rfl

/-- Settles O46: both states come to hold the response to the request. -/
theorem responseDependsOnlyOnTheRequest : Obligations.ResponseDependsOnlyOnTheRequest := by
  intro s s' q rest rest' hq hs hs'
  obtain ⟨r, hr⟩ := Option.ne_none_iff_exists'.mp hs
  obtain ⟨r', hr'⟩ := Option.ne_none_iff_exists'.mp hs'
  refine ⟨_, _, step_cycle_run hr rfl rest, step_cycle_run hr' rfl rest', ?_, Option.some_ne_none _⟩
  rw [writeResp_resp, writeResp_resp, instrResp_of_request hq, instrResp_of_request hq]

/-- Settles O33: an instruction asks for registers and the unreset block has none; a reset asks for nothing. -/
theorem unresetBlockHasNoStepButAReset : Obligations.UnresetBlockHasNoStepButAReset := by
  intro s hs
  refine ⟨fun i => exec_of_none i hs, hs, fun p rest hp => ?_, fun p rest hp => ?_⟩
  · rw [step_cycle, clockEdge_run hp]
    exact exec_of_none _ hs
  · exact ⟨_, step_cycle_reset hp s rest, takeReset_resp _⟩

end Sys2Proof.Machine
end

section
/-! PROOFS. DEC is exact, and what its result's pattern looks like (spec/41_decoder.md R103 to R109). -/

namespace Sys2Proof.Machine

/-! ### The accumulator of DEC (R103 to R105) -/

/-- A number of 53 bits over a power of two does not round (R7). -/
theorem valueOf_fl64_div {m k : ℕ} (hm : m < 2 ^ 53) (hk : k ≤ 1074) :
    valueOf (fl64 ((m : ℚ) / 2 ^ k)) = some (.real ((m : ℚ) / 2 ^ k)) := by
  refine valueOf_fl64_exact (q := -(k : ℤ)) ?_ hm (by omega) (by omega)
  rw [zpow_neg, zpow_natCast, div_eq_mul_inv]

/-- A number of 53 bits over a power of two, divided by a power of two: nothing rounds (R105). -/
theorem valueOf_div64_pow {v : F64} {m k j : ℕ} (hv : valueOf v = some (.real ((m : ℚ) / 2 ^ k))) (hm : m < 2 ^ 53)
    (hj : j < 53) (hkj : k + j ≤ 1074) :
    valueOf (div64 v (to64 (2 ^ j))) = some (.real ((m : ℚ) / 2 ^ (k + j))) := by
  have hdiv : exactResult .div ((m : ℚ) / 2 ^ k) ((2 ^ j : ℕ) : ℚ) = some ((m : ℚ) / 2 ^ (k + j)) := by
    rw [exactResult, if_neg (by positivity), Nat.cast_pow, Nat.cast_two, div_div, pow_add]
  rw [div64, arith64_of_real hv (valueOf_to64 (Nat.pow_lt_pow_right one_lt_two hj)) hdiv]
  exact valueOf_fl64_div hm hkj

/-- A term of the accumulator is exact (R104). -/
theorem valueOf_weighted (d : Byte) {k : ℕ} (hk : k < 53) :
    valueOf (weighted d (2 ^ k)) = some (.real ((d.toNat : ℚ) / 2 ^ k)) := by
  have hd : d.toNat < 2 ^ 53 := by have := d.isLt; omega
  have h := valueOf_div64_pow (k := 0) (by simpa using valueOf_to64 hd) hd hk (by omega)
  rwa [Nat.zero_add] at h

section Accumulator
variable (q : Word32)

/-- The bits of a word from a digit upwards: those above the digit, then the digit. -/
theorem div_pow_eq_append_digit (k : ℕ) :
    q.toNat / 2 ^ k = q.toNat / 2 ^ (k + 8) * 2 ^ 8 + (q.extractLsb' k 8).toNat := by
  rw [BitVec.extractLsb'_toNat, Nat.shiftRight_eq_div_pow, pow_add, ← Nat.div_div_eq_div_mul]
  exact (Nat.div_add_mod' _ _).symm

/-- An addition of the accumulator is exact, and appends the next digit in base 256 (R105). -/
theorem valueOf_add64_digit {acc : F64} {k j : ℕ} (hj : j ≤ 16)
    (hacc : valueOf acc = some (.real (((q.toNat / 2 ^ (k + 8) : ℕ) : ℚ) / 2 ^ j))) :
    valueOf (add64 acc (weighted (q.extractLsb' k 8) (2 ^ (j + 8)))) =
      some (.real (((q.toNat / 2 ^ k : ℕ) : ℚ) / 2 ^ (j + 8))) := by
  have hsum : exactResult .add (((q.toNat / 2 ^ (k + 8) : ℕ) : ℚ) / 2 ^ j)
      (((q.extractLsb' k 8).toNat : ℚ) / 2 ^ (j + 8)) = some (((q.toNat / 2 ^ k : ℕ) : ℚ) / 2 ^ (j + 8)) := by
    rw [exactResult, div_pow_eq_append_digit q k, pow_add (2 : ℚ) j 8, Option.some_inj]
    push_cast
    field_simp
    ring
  rw [add64, arith64_of_real hacc (valueOf_weighted _ (by omega)) hsum]
  exact valueOf_fl64_div ((Nat.div_le_self _ _).trans_lt (by have := q.isLt; omega)) (by omega)

theorem valueOf_accZero : valueOf (accZero q) = some (.real ((q.toNat / 2 ^ 24 : ℕ) : ℚ)) := by
  have hdigit : (q.extractLsb' 24 8).toNat = q.toNat / 2 ^ 24 := by
    have h := div_pow_eq_append_digit q 24
    have hq := q.isLt
    omega
  rw [accZero, unpack, hdigit]
  exact valueOf_to64 (by have := q.isLt; omega)

theorem valueOf_accOne : valueOf (accOne q) = some (.real (((q.toNat / 2 ^ 16 : ℕ) : ℚ) / 2 ^ 8)) :=
  valueOf_add64_digit q (k := 16) (j := 0) (by omega) (by simpa using valueOf_accZero q)

theorem valueOf_accTwo : valueOf (accTwo q) = some (.real (((q.toNat / 2 ^ 8 : ℕ) : ℚ) / 2 ^ 16)) :=
  valueOf_add64_digit q (k := 8) (j := 8) (by omega) (valueOf_accOne q)

theorem valueOf_accThree : valueOf (accThree q) = some (.real ((q.toNat : ℚ) / 2 ^ 24)) := by
  have h := valueOf_add64_digit q (k := 0) (j := 16) (by omega) (valueOf_accTwo q)
  rwa [pow_zero, Nat.div_one] at h

/-- DEC gives N·2^(−32) (R105). -/
theorem valueOf_decFn : valueOf (decFn q) = some (.real ((q.toNat : ℚ) / 2 ^ 32)) :=
  valueOf_div64_pow (k := 24) (j := 8) (valueOf_accThree q) (by have := q.isLt; omega) (by omega) (by omega)

end Accumulator

/-! ### The pattern of a positive value, and of a DEC result (R6, R109) -/

/-- A pattern with a positive value has sign 0, and its value is its count of 2^(−1074) (R6). -/
theorem units_of_valueOf_pos {f : F64} {x : ℚ} (hv : valueOf f = some (.real x)) (hx : 0 < x) :
    signOf f = 0#1 ∧ x = (unitsOf f : ℚ) * 2 ^ (-1074 : ℤ) := by
  have hunits : (0 : ℚ) ≤ unitsOf f * 2 ^ (-1074 : ℤ) := by positivity
  rw [valueOf, magnitudeOf_eq_units] at hv
  split at hv
  · cases hv
  split at hv
  · split at hv <;> cases hv
  cases hv
  obtain hs | hs := bit_cases (signOf f)
  · exact ⟨hs, by simp [hs]⟩
  · rw [if_pos hs] at hx
    linarith

/-- A pattern whose value is n·2^(−32), for n of [1, 2^32), has sign 0, an exponent field of 991 to 1022, and a fraction
whose 21 low bits are 0 (R106, R109). -/
theorem fields_of_valueOf_div {f : F64} {n : ℕ} (hv : valueOf f = some (.real ((n : ℚ) / 2 ^ 32))) (hpos : 0 < n)
    (hn : n < 2 ^ 32) :
    signOf f = 0#1 ∧ 991 ≤ exponentOf f ∧ exponentOf f ≤ 1022 ∧ 2 ^ 21 ∣ fractionOf f := by
  obtain ⟨hsign, hval⟩ := units_of_valueOf_pos hv (by positivity)
  have hunits : unitsOf f = n * 2 ^ 1042 := by
    have h1074 : (2 : ℚ) ^ (-1074 : ℤ) = 1 / (2 ^ 1042 * 2 ^ 32) := by
      rw [← pow_add, zpow_neg, one_div]
      exact congrArg _ (zpow_natCast 2 1074)
    rw [h1074] at hval
    field_simp at hval
    apply Nat.cast_injective (R := ℚ)
    rw [Nat.cast_mul, Nat.cast_pow, Nat.cast_two, hval]
  have hlow : 1042 < 52 + exponentOf f := (pow_lt_pow_iff_right₀ one_lt_two).mp <| by
    calc 2 ^ 1042 ≤ n * 2 ^ 1042 := Nat.le_mul_of_pos_left _ hpos
      _ < 2 ^ (52 + exponentOf f) := by rw [pow_add, ← hunits]; exact unitsOf_lt f
  have hhigh : 52 + (exponentOf f - 1) < 32 + 1042 := (pow_lt_pow_iff_right₀ one_lt_two).mp <| by
    calc 2 ^ (52 + (exponentOf f - 1)) ≤ n * 2 ^ 1042 := by rw [pow_add, ← hunits]; exact le_unitsOf (by omega)
      _ < 2 ^ (32 + 1042) := by rw [pow_add]; exact Nat.mul_lt_mul_of_pos_right hn (by positivity)
  refine ⟨hsign, by omega, by omega, ?_⟩
  obtain ⟨j, hj⟩ : ∃ j, 1042 = 21 + j + (exponentOf f - 1) := ⟨1022 - exponentOf f, by omega⟩
  have hsignificand : 2 ^ 52 + fractionOf f = 2 ^ 21 * (n * 2 ^ j) := by
    rw [unitsOf, if_neg (by omega), hj, pow_add, pow_add] at hunits
    exact Nat.eq_of_mul_eq_mul_right (by positivity : 0 < 2 ^ (exponentOf f - 1)) (hunits.trans (by ring))
  exact (Nat.dvd_add_right (pow_dvd_pow 2 (by norm_num))).mp ⟨_, hsignificand⟩

/-- The fields of a DEC result that is not zero (R106, R109). -/
theorem fields_of_decFn {q : Word32} (hq : q ≠ 0#32) :
    signOf (decFn q) = 0#1 ∧ 991 ≤ exponentOf (decFn q) ∧ exponentOf (decFn q) ≤ 1022 ∧
      2 ^ 21 ∣ fractionOf (decFn q) :=
  fields_of_valueOf_div (valueOf_decFn q) (Nat.pos_of_ne_zero (by simpa [← BitVec.toNat_inj] using hq)) q.isLt

theorem decFn_zero : decFn 0#32 = 0#64 := by decide +kernel

end Sys2Proof.Machine
end

section
/-! PROOFS. Every step keeps the invariant of the state (spec/10_state.md R27; spec/30_encoding.md R65;
spec/60_exceptions.md R141). -/

namespace Sys2Proof.Machine

/-! ### ENC results (R81, R87) -/

theorem encFn_of_isNaN {f : F64} (hn : isNaN f = true) : encFn f = (0#32, 1#1) := by
  rw [encFn, encFnAt, if_pos hn, invalidFlag, if_pos hn]

/-- ENC never exceeds N_MAX: no clamped value does (R87). -/
theorem encFn_le_nMax (f : F64) : (encFn f).1.toNat ≤ nMax.toNat := by
  cases hn : isNaN f
  case true => rw [encFn_of_isNaN hn]; decide
  case false =>
    obtain ⟨x, -, h0, hx, hf⟩ :=
      encIsTheFloorForEveryClampBound _ _ valueOf_clampHi (by norm_num) (by norm_num) f hn
    have hlo : 0 ≤ ⌊x * 2 ^ 32⌋ := Int.floor_nonneg.mpr (by positivity)
    have hhi : ⌊x * 2 ^ 32⌋ < 4294966867 := Int.floor_lt.mpr (by push_cast; linarith)
    have hmax : nMax.toNat = 4294966866 := rfl
    rw [encFn, hf, BitVec.toNat_ofInt, hmax]
    omega

theorem zext64_toNat (n : Word32) : (zext64 n).toNat = n.toNat :=
  BitVec.toNat_setWidth_of_le (by omega)

/-! ### Every response is one of this block (R65, R81, R109) -/

@[simp] theorem respOk_reset : respOk Resp.reset = true := by decide

/-- The invariant does not read RESP_VALID. -/
@[simp] theorem respOk_idle (r : Resp) : respOk (idleResp r) = respOk r := rfl

@[simp] theorem respOk_enc (f : F64) : respOk (encResp f) = true := by
  have hbound : (zext64 (encFn f).1).toNat ≤ nMax.toNat := (zext64_toNat _).trans_le (encFn_le_nMax f)
  have hflag : (encResp f).invalid ≠ 1#1 ∨ (encResp f).data = 0#64 := by
    cases hn : isNaN f
    · exact .inl (by simp [invalidFlag, hn])
    · exact .inr (by rw [encResp_data, encFn_of_isNaN hn]; rfl)
  simpa [respOk, hbound] using hflag

@[simp] theorem respOk_dec (c₁ c₂ c₃ c₄ : Byte) : respOk (decResp c₁ c₂ c₃ c₄) = true := by
  obtain hq | hq := eq_or_ne (pack c₁ c₂ c₃ c₄) 0#32
  · simp [respOk, hq, decFn_zero]
  · obtain ⟨hsign, hlow, hhigh, hdvd⟩ := fields_of_decFn hq
    have hbits : (decFn (pack c₁ c₂ c₃ c₄)).extractLsb' 0 21 = 0#21 := by
      apply BitVec.eq_of_toNat_eq
      rw [fractionOf, BitVec.extractLsb'_toNat] at hdvd
      rw [BitVec.extractLsb'_toNat, BitVec.toNat_zero]
      omega
    simp [respOk, hsign, hlow, hhigh, hbits]

/-- An instruction leaves a response of this block. -/
theorem respOk_instrResp (i : Instr) {r : Resp} (h : respOk r = true) : respOk (instrResp i r) = true := by
  cases i with
  | nop => exact (respOk_idle r).trans h
  | enc f => exact respOk_enc f
  | dec c₁ c₂ c₃ c₄ => exact respOk_dec c₁ c₂ c₃ c₄

/-! ### The invariant of the state -/

theorem respOk_of_stateInv {s : State} {r : Resp} (h : stateInv s = true) (hr : s.resp = some r) : respOk r = true := by
  rw [stateInv, hr, Bool.and_eq_true] at h
  exact h.1

/-- A write of the registers marks a fault it shows, so the invariant asks only for a response of this block (R141). -/
@[simp] theorem stateInv_writeResp (x : Resp) (s : State) : stateInv (writeResp x s) = respOk x := by
  cases hx : respShowsFault x <;> simp [stateInv, stateShowsFault, hx]

@[simp] theorem stateInv_losePower (s : State) : stateInv (losePower s) = true := rfl

/-- Settles O52: a step writes a response of this block, or writes nothing, or leaves no registers. -/
theorem everyStepKeepsTheStateInvariant : Obligations.EveryStepKeepsTheStateInvariant := by
  intro s t hs h
  obtain ⟨e, rest, -, ⟨p, -, -, rfl⟩ | ⟨p, r, -, -, hr, rfl⟩ | ⟨-, rfl⟩ | ⟨-, rfl⟩⟩ := step_eq_next h
  · rw [takeReset, stateInv_writeResp, respOk_reset]
  · rw [stateInv_writeResp]
    exact respOk_instrResp _ (respOk_of_stateInv hs hr)
  · exact hs
  · exact stateInv_losePower _

end Sys2Proof.Machine
end

section
/-! PROOFS. The bytes of a pixel and the order of responses (spec/20_memory.md R41, R49; spec/44_interface_cycle.md R123,
R124). -/

namespace Sys2Proof.Machine

/-! ### The bytes of a pixel (R41) -/

/-- A pixel's bytes are its channels, byte offset 0 first (R41, R10). -/
theorem pixelBytes_eq_unpack (n : Word32) :
    pixelBytes n = [(unpack n).r, (unpack n).g, (unpack n).b, (unpack n).a] :=
  rfl

@[simp] theorem pixelBytes_pack (r g b a : Byte) : pixelBytes (pack r g b a) = [r, g, b, a] := by
  rw [pixelBytes_eq_unpack, unpack_pack]

@[simp] theorem pixelOfBytes_pixelBytes (n : Word32) : pixelOfBytes (pixelBytes n) = some n := by
  rw [pixelBytes_eq_unpack, pixelOfBytes, pack_unpack]

/-- Settles O7: the bytes are the unpacked channels, and packing undoes unpacking. -/
theorem pixelBytesAreMostSignificantDigitFirst : Obligations.PixelBytesAreMostSignificantDigitFirst :=
  ⟨pixelBytes_pack, pixelOfBytes_pixelBytes⟩

/-! ### Back-to-back requests (R49, R123, R124) -/

/-- A step that answers a next state adds that state's output ports to the observation (R28, R129). -/
theorem observation_succ_of_step {s t : State} (h : step s = .next t) (k : ℕ) :
    observation (k + 1) s = outputPorts t :: observation k t := by
  rw [observation, trace, h, List.map_cons, observation]

/-- A request to a block that has been reset is accepted, and the registers hold its response in the next cycle (R123,
R124). -/
theorem step_cycle_request {s : State} {p : Pins} (hs : s.resp ≠ none) (hrst : p.rst = 0#1) (hreq : p.req.valid = 1#1)
    (rest : List HostEvent) :
    step { s with host := .cycle p :: rest } = .next (writeResp (responseTo p.req) { s with host := rest }) := by
  obtain ⟨r, hr⟩ := Option.ne_none_iff_exists'.mp hs
  rw [step_cycle_run hr hrst rest, instrResp_of_request hreq]

/-- Settles O47, by induction on the list of requests: each is answered in its own step, and the block it leaves is again
one that has been reset. -/
theorem responsesComeInRequestOrder : Obligations.ResponsesComeInRequestOrder := by
  intro ps
  induction ps with
  | nil => exact fun _ _ _ _ => rfl
  | cons p ps ih =>
    intro s rest hs hps
    obtain ⟨⟨hrst, hreq⟩, hrest⟩ := List.forall_mem_cons.mp hps
    have hstep := step_cycle_request hs hrst hreq (ps.map .cycle ++ rest)
    have htail := ih (writeResp (responseTo p.req) s) rest (Option.some_ne_none _) hrest
    calc observation (ps.length + 1) { s with host := .cycle p :: (ps.map .cycle ++ rest) }
      _ = some (responseTo p.req) ::
            observation ps.length (writeResp (responseTo p.req) { s with host := ps.map .cycle ++ rest }) :=
          observation_succ_of_step hstep _
      _ = some (responseTo p.req) :: ps.map (fun q => some (responseTo q.req)) := congrArg _ htail

end Sys2Proof.Machine
end

section
/-! PROOFS. The request word, the decoder and the encoder, and the response word (spec/30_encoding.md R60 to R64, R68,
R74). -/

namespace Sys2Proof.Machine

/-! ### The request word and its ports (R60) -/

@[simp] theorem requestOfWord_requestWord (q : Request) : requestOfWord (requestWord q) = q := by
  rw [requestOfWord, requestWord_valid, requestWord_op, requestWord_operand q 0 64 (Nat.le_refl _),
    BitVec.extractLsb'_eq_self]

@[simp] theorem requestWord_requestOfWord (w : RequestWord) : requestWord (requestOfWord w) = w := by
  have htop : w.extractLsb' 65 1 ++ w.extractLsb' 64 1 = w.extractLsb' 64 2 :=
    BitVec.extractLsb'_append_extractLsb'_eq_extractLsb' rfl
  have hall : w.extractLsb' 64 2 ++ w.extractLsb' 0 64 = w.extractLsb' 0 66 :=
    BitVec.extractLsb'_append_extractLsb'_eq_extractLsb' rfl
  rw [requestWord, requestOfWord, htop, hall, BitVec.extractLsb'_eq_self]

/-- Every request word idles, or asks for an ENC, or asks for a DEC (R68). -/
theorem requestWord_cases (w : RequestWord) :
    (∃ op f, w = requestWord ⟨0#1, op, f⟩) ∨ (∃ f, w = requestWord ⟨1#1, 0#1, f⟩) ∨
      ∃ f, w = requestWord ⟨1#1, 1#1, f⟩ := by
  rw [← requestWord_requestOfWord w]
  obtain ⟨valid, op, operand⟩ := requestOfWord w
  obtain rfl | rfl := bit_cases valid
  · exact .inl ⟨op, operand, rfl⟩
  obtain rfl | rfl := bit_cases op
  · exact .inr (.inl ⟨operand, rfl⟩)
  · exact .inr (.inr ⟨operand, rfl⟩)

/-! ### The decoder, row by row (R68) -/

/-- The four channels of a word are the quadruple of its low 32 bits (R10, R62). -/
theorem dec_channels_eq_decwInstr {n : ℕ} (x : BitVec n) :
    Instr.dec (x.extractLsb' 24 8) (x.extractLsb' 16 8) (x.extractLsb' 8 8) (x.extractLsb' 0 8) =
      decwInstr (x.extractLsb' 0 32) := by
  rw [decwInstr, ← pack_bytes, unpack_pack]

@[simp] theorem decode_idle (op : Bit) (f : Word64) : decode (requestWord ⟨0#1, op, f⟩) = .nop :=
  decode_requestWord _

@[simp] theorem decode_encRequest (f : F64) : decode (requestWord ⟨1#1, 0#1, f⟩) = .enc f :=
  decode_requestWord _

/-- A DEC request is the `dec` of its low operand half (R62). -/
@[simp] theorem decode_decRequest (f : Word64) :
    decode (requestWord ⟨1#1, 1#1, f⟩) = decwInstr (f.extractLsb' 0 32) :=
  (decode_requestWord _).trans (dec_channels_eq_decwInstr f)

@[simp] theorem decwInstr_pack (r g b a : Byte) : decwInstr (pack r g b a) = .dec r g b a := by
  rw [decwInstr, unpack_pack]

theorem encode_nop : encode .nop = requestWord ⟨0#1, 0#1, 0#64⟩ :=
  rfl

theorem encode_enc (f : F64) : encode (.enc f) = requestWord ⟨1#1, 0#1, f⟩ :=
  rfl

theorem encode_dec (r g b a : Byte) : encode (.dec r g b a) = requestWord ⟨1#1, 1#1, 0#32 ++ pack r g b a⟩ :=
  rfl

@[simp] theorem encode_decwInstr (h : Word32) : encode (decwInstr h) = requestWord ⟨1#1, 1#1, 0#32 ++ h⟩ := by
  rw [decwInstr, encode_dec, pack_unpack]

/-- Settles O1, row by row: only the operand of `dec` is laid out anew, and its low half packs the four channels. -/
theorem decodeOfEncodeGivesTheInstructionBack : Obligations.DecodeOfEncodeGivesTheInstructionBack := by
  intro i _
  cases i with
  | nop => rw [encode_nop, decode_idle]
  | enc f => rw [encode_enc, decode_encRequest]
  | dec r g b a => rw [encode_dec, decode_decRequest, BitVec.extractLsb'_append_eq_right, decwInstr_pack]

/-! ### Ignored bits (R62, R63) -/

/-- A mask over a request word masks each field with its own part. -/
theorem requestWord_and (v v' o o' : Bit) (f f' : Word64) :
    requestWord ⟨v, o, f⟩ &&& requestWord ⟨v', o', f'⟩ = requestWord ⟨v &&& v', o &&& o', f &&& f'⟩ := by
  rw [requestWord, requestWord, requestWord, BitVec.and_append (w := 2) (v := 64),
    BitVec.and_append (w := 1) (v := 1)]

/-- A mask over the low half clears the high half. -/
theorem and_low_half (f : Word64) : f &&& (0#32 ++ BitVec.allOnes 32) = 0#32 ++ f.extractLsb' 0 32 := by
  have hsplit : f.extractLsb' 32 32 ++ f.extractLsb' 0 32 = f :=
    (BitVec.extractLsb'_append_extractLsb'_eq_extractLsb' rfl).trans BitVec.extractLsb'_eq_self
  calc f &&& (0#32 ++ BitVec.allOnes 32)
    _ = (f.extractLsb' 32 32 ++ f.extractLsb' 0 32) &&& (0#32 ++ BitVec.allOnes 32) := by rw [hsplit]
    _ = 0#32 ++ f.extractLsb' 0 32 := by
      rw [BitVec.and_append (w := 32) (v := 32), BitVec.and_zero, BitVec.and_allOnes]

theorem meaningfulBits_nop : meaningfulBits .nop = requestWord ⟨1#1, 0#1, 0#64⟩ := by decide

theorem meaningfulBits_enc (f : F64) : meaningfulBits (.enc f) = requestWord ⟨1#1, 1#1, BitVec.allOnes 64⟩ := by
  rw [meaningfulBits]; decide

theorem meaningfulBits_decwInstr (h : Word32) :
    meaningfulBits (decwInstr h) = requestWord ⟨1#1, 1#1, 0#32 ++ BitVec.allOnes 32⟩ := by
  rw [decwInstr, meaningfulBits]; decide

/-- Settles O2, row by row: the mask keeps the fields the row reads and clears the others, as the encoder does (log entry
10). -/
theorem encodeOfDecodeClearsTheIgnoredBits : Obligations.EncodeOfDecodeClearsTheIgnoredBits := by
  intro w
  obtain ⟨op, f, rfl⟩ | ⟨f, rfl⟩ | ⟨f, rfl⟩ := requestWord_cases w
  · rw [decode_idle, meaningfulBits_nop, requestWord_and, BitVec.zero_and, BitVec.and_zero, BitVec.and_zero,
      encode_nop]
  · rw [decode_encRequest, meaningfulBits_enc, requestWord_and, BitVec.and_self, BitVec.zero_and, BitVec.and_allOnes,
      encode_enc]
  · rw [decode_decRequest, meaningfulBits_decwInstr, requestWord_and, BitVec.and_self, and_low_half, encode_decwInstr]

/-! ### The opcode map by mask and match (R68) -/

theorem encode_and_rowMask (i : Instr) : encode i &&& rowMask i = rowMatch i := by
  cases i with
  | nop => exact Laws.EncodeMatchesRow.nop
  | enc f => exact Laws.EncodeMatchesRow.enc f
  | dec r g b a => exact Laws.EncodeMatchesRow.dec r g b a

/-- A row's mask covers only bits that the row gives a meaning. -/
theorem meaningfulBits_and_rowMask (i : Instr) : meaningfulBits i &&& rowMask i = rowMask i := by
  cases i <;> rw [meaningfulBits, rowMask] <;> decide

/-- A word matches the row of what it decodes to. -/
theorem and_rowMask_decode (w : RequestWord) : w &&& rowMask (decode w) = rowMatch (decode w) := by
  rw [← encode_and_rowMask, encodeOfDecodeClearsTheIgnoredBits, BitVec.and_assoc, meaningfulBits_and_rowMask]

/-- No row looks at the operand. -/
theorem matchingRows_requestWord (valid op : Bit) (f : Word64) :
    matchingRows (requestWord ⟨valid, op, f⟩) = matchingRows (requestWord ⟨valid, op, 0#64⟩) := by
  have hmasks : ∀ row ∈ opcodeRows, ∃ m : BitVec 2, row.2.1 = m ++ 0#64 := by
    rw [opcodeRows]
    simp only [List.forall_mem_cons]
    exact ⟨⟨2#2, rfl⟩, ⟨3#2, rfl⟩, ⟨3#2, rfl⟩, nofun⟩
  rw [matchingRows, matchingRows]
  refine congrArg _ (List.filter_congr fun row hrow => ?_)
  obtain ⟨m, hm⟩ := hmasks row hrow
  rw [hm, requestWord, requestWord, Laws.EncodeMatchesRow.high_mask, Laws.EncodeMatchesRow.high_mask]

theorem matchingRows_eq (w : RequestWord) : matchingRows w = [mnemonicOf (decode w)] := by
  obtain ⟨op, f, rfl⟩ | ⟨f, rfl⟩ | ⟨f, rfl⟩ := requestWord_cases w
  · rw [matchingRows_requestWord, decode_idle]
    obtain rfl | rfl := bit_cases op <;> decide
  · rw [matchingRows_requestWord, decode_encRequest, mnemonicOf]
    decide
  · rw [matchingRows_requestWord, decode_decRequest, decwInstr, mnemonicOf]
    decide

/-- A one-bit field is the bit at its place. -/
theorem extractLsb'_one {n : ℕ} (x : BitVec n) (i : ℕ) : x.extractLsb' i 1 = BitVec.ofBool (x.getLsbD i) := by
  rw [BitVec.getLsbD_eq_extractLsb']
  obtain h | h := bit_cases (x.extractLsb' i 1) <;> rw [h] <;> rfl

/-- Settles O3: the rows look at the two top bits only, and the decoder looks at those bits first. -/
theorem everyRequestWordMatchesExactlyItsRow : Obligations.EveryRequestWordMatchesExactlyItsRow := by
  intro w
  refine ⟨matchingRows_eq w, and_rowMask_decode w, fun h65 => ?_, fun h65 h64 => ?_, fun h65 h64 => ?_⟩
  · rw [decode, extractLsb'_one w 65, h65]; rfl
  · rw [decode, extractLsb'_one w 65, extractLsb'_one w 64, h65, h64]; rfl
  · rw [decode, extractLsb'_one w 65, extractLsb'_one w 64, h65, h64]; rfl

/-! ### The response word (R64) -/

/-- Settles O5: each register is a part of the concatenation. -/
theorem responseWordHoldsTheFourRegisters : Obligations.ResponseWordHoldsTheFourRegisters := by
  intro r
  have habove (start : ℕ) (h : 64 ≤ start) :
      (responseWord r).extractLsb' start 1 = (r.valid ++ r.op ++ r.invalid).extractLsb' (start - 64) 1 :=
    BitVec.extractLsb'_append_eq_of_le h
  refine ⟨?_, ?_, ?_, BitVec.extractLsb'_append_eq_right⟩
  · rw [habove 66 (by decide), BitVec.extractLsb'_append_eq_of_le (by decide)]
    exact BitVec.extractLsb'_append_eq_left
  · rw [habove 65 (by decide), BitVec.extractLsb'_append_eq_of_le (by decide)]
    exact BitVec.extractLsb'_append_eq_right
  · rw [habove 64 (by decide)]
    exact BitVec.extractLsb'_append_eq_right

/-! ### The operand of a DEC request (R62, R69) -/

theorem pinsInstr_decRequest (rst : Bit) (x : Word64) :
    pinsInstr ⟨rst, ⟨1#1, 1#1, x⟩⟩ = decwInstr (x.extractLsb' 0 32) :=
  decode_decRequest x

/-- Settles O42: the request is the `dec` of its low operand half, and its channels are the bytes of that half. -/
theorem decIgnoresTheUpperOperandHalf : Obligations.DecIgnoresTheUpperOperandHalf := by
  refine ⟨fun s rst x y rest hlow => ?_, fun x => pinsInstr_eq _⟩
  have hinstr : pinsInstr ⟨rst, ⟨1#1, 1#1, x⟩⟩ = pinsInstr ⟨rst, ⟨1#1, 1#1, y⟩⟩ := by
    rw [pinsInstr_decRequest, pinsInstr_decRequest, hlow]
  rw [step_cycle, step_cycle, clockEdge, clockEdge, hinstr]

/-! ### Fixed words and the state after reset -/

/-- Settles O4: the words of the spec, evaluated. -/
theorem sampleRequestWordsAreThoseOfTheSpec : Obligations.SampleRequestWordsAreThoseOfTheSpec := by
  unfold Obligations.SampleRequestWordsAreThoseOfTheSpec
  decide

/-- Settles O51: the registers after reset are a response of this block, and show no fault. -/
theorem stateInvariantHoldsAfterReset : Obligations.StateInvariantHoldsAfterReset :=
  (stateInv_writeResp Resp.reset State.reset).trans respOk_reset

end Sys2Proof.Machine
end

section
/-! PROOFS. The assembler's literals and statements (spec/30_encoding.md R71 to R74). -/

namespace Sys2Proof.Machine

/-! ### Channel literals (R72, R102) -/

theorem channelByte_decimal_ok {n : ℕ} (h : n < 2 ^ 8) : channelByte (.decimal n) = .ok (BitVec.ofNat 8 n) :=
  if_pos (decide_eq_true h)

theorem channelByte_decimal_error {n : ℕ} (h : 255 < n) : channelByte (.decimal n) = .error .channelOutOfRange :=
  if_neg (by rw [channelOk, decide_eq_true_eq]; omega)

theorem channelByte_hex_ok {d n : ℕ} (hd : d = 1 ∨ d = 2) (h : n < 16 ^ d) :
    channelByte (.hex d n) = .ok (BitVec.ofNat 8 n) :=
  if_pos (by rw [channelDigitsOk, decide_eq_true hd, decide_eq_true h, Bool.true_and])

theorem channelByte_hex_error {d : ℕ} (hd : ¬ (d = 1 ∨ d = 2)) (n : ℕ) :
    channelByte (.hex d n) = .error .channelDigits :=
  if_neg (by rw [channelDigitsOk, decide_eq_false hd, Bool.false_and]; decide)

/-- Every byte is the value of its own number in decimal. -/
theorem channelByte_toNat (c : Byte) : channelByte (.decimal c.toNat) = .ok c := by
  rw [channelByte_decimal_ok c.isLt, BitVec.ofNat_toNat, BitVec.setWidth_eq]

theorem channelByte_hex_toNat {d : ℕ} (hd : d = 1 ∨ d = 2) {c : Byte} (h : c.toNat < 16 ^ d) :
    channelByte (.hex d c.toNat) = .ok c := by
  rw [channelByte_hex_ok hd h, BitVec.ofNat_toNat, BitVec.setWidth_eq]

/-- No hexadecimal literal above 255 is accepted, whatever its digits. -/
theorem channelByte_hex_ne_ok {d v : ℕ} (hv : 255 < v) (c : Byte) : channelByte (.hex d v) ≠ .ok c := by
  intro h
  have hc := c.isLt
  obtain hdec | ⟨hone, -⟩ | htwo := channelByte_eq_ok h
  · cases hdec
  · cases hone; omega
  · cases htwo; omega

/-! ### Statements (R73, R74) -/

section Dec
variable {r g b a : ChannelLit} {r' g' b' a' : Byte} {why : AsmReason}

theorem stmtCycles_dec_ok (hr : channelByte r = .ok r') (hg : channelByte g = .ok g') (hb : channelByte b = .ok b')
    (ha : channelByte a = .ok a') : stmtCycles (.dec r g b a) = .ok [instrPins (.dec r' g' b' a')] := by
  rw [stmtCycles, hr, hg, hb, ha]; rfl

/-! The first refused channel refuses `dec` by its own name. -/

theorem stmtCycles_dec_error_r (h : channelByte r = .error why) (g b a : ChannelLit) :
    stmtCycles (.dec r g b a) = .error why := by
  rw [stmtCycles, h]; rfl

theorem stmtCycles_dec_error_g (hr : channelByte r = .ok r') (h : channelByte g = .error why) (b a : ChannelLit) :
    stmtCycles (.dec r g b a) = .error why := by
  rw [stmtCycles, hr, h]; rfl

theorem stmtCycles_dec_error_b (hr : channelByte r = .ok r') (hg : channelByte g = .ok g')
    (h : channelByte b = .error why) (a : ChannelLit) : stmtCycles (.dec r g b a) = .error why := by
  rw [stmtCycles, hr, hg, h]; rfl

theorem stmtCycles_dec_error_a (hr : channelByte r = .ok r') (hg : channelByte g = .ok g')
    (hb : channelByte b = .ok b') (h : channelByte a = .error why) : stmtCycles (.dec r g b a) = .error why := by
  rw [stmtCycles, hr, hg, hb, h]; rfl

/-- A refused channel in any place leaves `dec` without a cycle. -/
theorem stmtCycles_dec_ne_ok {bad : ChannelLit} (h : channelByte bad = .error why)
    (hbad : r = bad ∨ g = bad ∨ b = bad ∨ a = bad) (ps : List Pins) : stmtCycles (.dec r g b a) ≠ .ok ps := by
  intro hok
  obtain ⟨r', g', b', a', hr, hg, hb, ha, -⟩ := stmtCycles_dec_eq_ok hok
  obtain rfl | rfl | rfl | rfl := hbad
  · cases h.symm.trans hr
  · cases h.symm.trans hg
  · cases h.symm.trans hb
  · cases h.symm.trans ha

end Dec

theorem stmtCycles_enc_ok {l : ScalarLit} {f : F64} (h : scalarBits l = .ok f) :
    stmtCycles (.enc l) = .ok [instrPins (.enc f)] := by
  rw [stmtCycles, h]; rfl

theorem stmtCycles_enc_hex_error {d : ℕ} (hd : d ≠ 16) (v : ℕ) :
    stmtCycles (.enc (.hex d v)) = .error .scalarDigits := by
  have hbits : scalarBits (.hex d v) = .error .scalarDigits :=
    if_neg (by rw [scalarDigitsOk, decide_eq_false hd, Bool.false_and]; decide)
  rw [stmtCycles, hbits]; rfl

theorem stmtCycles_decw_ok (h : Word32) : stmtCycles (.decw 8 h.toNat) = .ok [instrPins (decwInstr h)] := by
  have hvalue : (packedOk 8 && decide (h.toNat < 2 ^ 32)) = true := by rw [decide_eq_true h.isLt]; rfl
  rw [stmtCycles, if_pos hvalue, BitVec.ofNat_toNat, BitVec.setWidth_eq]

theorem stmtCycles_decw_error {d : ℕ} (hd : d ≠ 8) (v : ℕ) : stmtCycles (.decw d v) = .error .packedDigits :=
  if_neg (by rw [packedOk, decide_eq_false hd, Bool.false_and]; decide)

theorem stmtCycles_nops_ok {n : ℕ} (h : 1 ≤ n) : stmtCycles (.nops n) = .ok (List.replicate n (instrPins .nop)) :=
  if_pos (decide_eq_true h)

/-- Settles O57: each clause is the refusal of its literal or its place. -/
theorem assemblerRefusesIllFormedLiterals : Obligations.AssemblerRefusesIllFormedLiterals := by
  refine ⟨fun _ => channelByte_decimal_error, fun d v h1 h2 => channelByte_hex_error (not_or.mpr ⟨h1, h2⟩) v,
    fun _ _ c hv => channelByte_hex_ne_ok hv c, fun bad why hbad => ?_, fun _ v hd => stmtCycles_enc_hex_error hd v,
    fun _ v hd => stmtCycles_decw_error hd v, rfl⟩
  exact ⟨stmtCycles_dec_error_r hbad, fun _ b a _ hr => stmtCycles_dec_error_g hr hbad b a,
    fun _ _ a _ _ hr hg => stmtCycles_dec_error_b hr hg hbad a,
    fun _ _ _ _ _ _ hr hg hb => stmtCycles_dec_error_a hr hg hb hbad,
    fun _ _ _ _ ps hplace => stmtCycles_dec_ne_ok hbad hplace ps⟩

/-! ### Scalar literals (R72) -/

/-- A raw literal of 16 digits is its pattern. -/
theorem scalarBits_raw (f : F64) : scalarBits (.hex 16 f.toNat) = .ok f := by
  have hvalue : (scalarDigitsOk 16 && decide (f.toNat < 2 ^ 64)) = true := by rw [decide_eq_true f.isLt]; rfl
  rw [scalarBits, if_pos hvalue, BitVec.ofNat_toNat, BitVec.setWidth_eq]

/-- A decimal literal without a sign is rounded (log entry 8). -/
theorem scalarBits_decimal (n : ℕ) (e : ℤ) : scalarBits (.decimal false n e) = .ok (fl64 ((n : ℚ) * 10 ^ e)) := by
  rw [scalarBits, fl64_of_nonneg (by positivity), if_neg Bool.false_ne_true]

/-- A negative decimal literal is its number rounded, since rounding treats a number by its magnitude (R7). -/
theorem scalarBits_negative {n : ℕ} (hn : 0 < n) (e : ℤ) :
    scalarBits (.decimal true n e) = .ok (fl64 (-((n : ℚ) * 10 ^ e))) := by
  have hneg : -((n : ℚ) * 10 ^ e) < 0 := neg_lt_zero.mpr (by positivity)
  rw [scalarBits, fl64, if_pos hneg, neg_neg, if_pos rfl]

/-- Zero with a minus sign keeps the sign, which no number has (R72). -/
theorem scalarBits_negative_zero (e : ℤ) : scalarBits (.decimal true 0 e) = .ok 0x8000000000000000#64 := by
  have hzero : fl64Abs (((0 : ℕ) : ℚ) * 10 ^ e) = 0#64 := if_pos (by rw [Nat.cast_zero, zero_mul])
  rw [scalarBits, hzero, if_pos rfl, BitVec.or_zero]

theorem scalarBits_one_tenth : scalarBits (.decimal false 1 (-1)) = .ok 0x3FB999999999999A#64 := by decide +kernel

/-! ### The request words of statements (R74) -/

/-- The cycle of an instruction drives its request word. -/
theorem instrPins_eq_requestPins (i : Instr) : instrPins i = requestPins (encode i) := by
  rw [requestPins, encode, requestOfWord_requestWord, instrPins]

/-- Settles O56, literal by literal and statement by statement (log entry 8). -/
theorem assembledStatementsDriveTheirRequestWords : Obligations.AssembledStatementsDriveTheirRequestWords := by
  refine ⟨fun l f hl => ?_, scalarBits_raw, scalarBits_decimal, fun _ e hn => scalarBits_negative hn e,
    scalarBits_negative_zero, scalarBits_one_tenth, rfl, rfl, rfl, fun c => ?_,
    fun _ _ _ _ _ _ _ _ hr hg hb ha => ?_, ?_, ?_, fun h => ?_, fun n hn => ?_⟩
  · rw [stmtCycles_enc_ok hl, instrPins_eq_requestPins]; rfl
  · exact ⟨channelByte_toNat c, channelByte_hex_toNat (.inr rfl) c.isLt, fun h => channelByte_hex_toNat (.inl rfl) h⟩
  · rw [stmtCycles_dec_ok hr hg hb ha, instrPins_eq_requestPins]; rfl
  · rw [stmtCycles, instrPins_eq_requestPins]; rfl
  · decide
  · rw [stmtCycles_decw_ok, stmtCycles_dec_ok (channelByte_toNat _) (channelByte_toNat _) (channelByte_toNat _)
      (channelByte_toNat _)]
    rfl
  · rw [stmtCycles_nops_ok hn, instrPins_eq_requestPins]; rfl

end Sys2Proof.Machine
end

section
/-! PROOFS. ENC by the value of its operand: the clamp and the floor behind every property of ENC (spec/40_encoder.md R81
to R86). -/

namespace Sys2Proof.Machine

/-! ### One step (R84, R85) -/

/-- Settles O12: scaling, the digit and the remainder are those of a value of [0, 1). -/
theorem digitStepIsExact : Obligations.DigitStepIsExact := by
  intro v x hv h0 h1
  have hunit : DenotesUnit v x := ⟨hv, h0, h1⟩
  obtain ⟨hrem, hrem0, hrem1⟩ := hunit.remainderOf_scaled
  rw [← Int.self_sub_floor] at hrem hrem0 hrem1
  exact ⟨hunit.valueOf_scaled, by linarith, hunit.digitOf_scaled, hrem, hrem0, hrem1⟩

/-! ### The clamped value (R82) -/

/-- val(CLAMP_HI) (R9). -/
def clampHiValue : ℚ := 9007198354021067 / 2 ^ 53

/-- What the clamp makes of a value: the nearest number of [0, val(CLAMP_HI)] (R82). -/
def clampedValue : Ext → ℚ
  | .negInf => 0
  | .real x => max 0 (min x clampHiValue)
  | .posInf => clampHiValue

theorem clampHiValue_nonneg : 0 ≤ clampHiValue := by norm_num [clampHiValue]

theorem clampHiValue_lt_one : clampHiValue < 1 := by norm_num [clampHiValue]

theorem clampedValue_nonneg (e : Ext) : 0 ≤ clampedValue e := by
  cases e with
  | negInf => exact le_refl 0
  | real x => exact le_max_left _ _
  | posInf => exact clampHiValue_nonneg

theorem clampedValue_le (e : Ext) : clampedValue e ≤ clampHiValue := by
  cases e with
  | negInf => exact clampHiValue_nonneg
  | real x => exact max_le clampHiValue_nonneg (min_le_right _ _)
  | posInf => exact le_refl _

section Real
variable {x : ℚ}

theorem clampedValue_of_nonpos (h : x ≤ 0) : clampedValue (.real x) = 0 :=
  max_eq_left ((min_le_left _ _).trans h)

theorem clampedValue_of_ge (h : clampHiValue ≤ x) : clampedValue (.real x) = clampHiValue := by
  rw [clampedValue, min_eq_right h, max_eq_right clampHiValue_nonneg]

theorem clampedValue_of_between (h0 : 0 ≤ x) (h : x ≤ clampHiValue) : clampedValue (.real x) = x := by
  rw [clampedValue, min_eq_left h, max_eq_right h0]

end Real

/-- The clamp keeps the order of values. -/
theorem clampedValue_mono {e₁ e₂ : Ext} (h : extLt e₂ e₁ = false) : clampedValue e₁ ≤ clampedValue e₂ := by
  cases e₁ with
  | negInf => exact clampedValue_nonneg e₂
  | posInf =>
    cases e₂ with
    | posInf => exact le_refl _
    | negInf | real => cases h
  | real x =>
    cases e₂ with
    | negInf => cases h
    | posInf => exact clampedValue_le _
    | real y =>
      have hxy : x ≤ y := not_lt.mp (of_decide_eq_false h)
      exact max_le_max_left 0 (min_le_min_right _ hxy)

/-! ### The clamp on patterns (R82) -/

section Clamp
variable {f : F64} {e : Ext}

/-- Only a NaN has no value (R6). -/
theorem isNaN_of_valueOf (h : valueOf f = some e) : isNaN f = false := by
  by_contra hn
  rw [valueOf, if_pos (by simpa using hn)] at h
  cases h

theorem clamp_of_below (h : valueLt f 0#64 = true) : clamp f = 0#64 :=
  if_pos h

/-- What is above CLAMP_HI is not below 0. -/
theorem not_valueLt_zero_of_above (h : valueLt Config.clampHi f = true) : valueLt f 0#64 = false := by
  cases hf : valueOf f with
  | none => rw [valueLt, hf]
  | some e =>
    rw [valueLt_eq valueOf_clampHi hf] at h
    rw [valueLt_eq hf valueOf_zero]
    cases e with
    | negInf => cases h
    | posInf => rfl
    | real x =>
      have hx : clampHiValue < x := of_decide_eq_true h
      exact decide_eq_false (not_lt.mpr (clampHiValue_nonneg.trans hx.le))

theorem clamp_of_above (h : valueLt Config.clampHi f = true) : clamp f = Config.clampHi := by
  rw [clamp, clampAt, not_valueLt_zero_of_above h, if_neg Bool.false_ne_true, if_pos h]

theorem clamp_of_between (hlo : valueLt f 0#64 = false) (hup : valueLt Config.clampHi f = false) : clamp f = f := by
  rw [clamp, clampAt, hlo, hup, if_neg Bool.false_ne_true, if_neg Bool.false_ne_true]

/-- The pattern of the clamp denotes the clamped value (R82). -/
theorem valueOf_clamp (h : valueOf f = some e) : valueOf (clamp f) = some (.real (clampedValue e)) := by
  have hlo := valueLt_eq h valueOf_zero
  have hup := valueLt_eq valueOf_clampHi h
  cases e with
  | negInf => rw [clamp_of_below hlo, valueOf_zero, clampedValue]
  | posInf => rw [clamp_of_above hup, valueOf_clampHi, clampedValue, clampHiValue]
  | real x =>
    obtain hx | hx := lt_or_ge x 0
    · rw [clamp_of_below (hlo.trans (decide_eq_true hx)), valueOf_zero, clampedValue_of_nonpos hx.le]
    obtain hx' | hx' := lt_or_ge clampHiValue x
    · rw [clamp_of_above (hup.trans (decide_eq_true hx')), valueOf_clampHi, clampedValue_of_ge hx'.le, clampHiValue]
    · rw [clamp_of_between (hlo.trans (decide_eq_false (not_lt.mpr hx))) (hup.trans (decide_eq_false (not_lt.mpr hx'))),
        h, clampedValue_of_between hx hx']

end Clamp

/-! ### ENC is the floor of the clamped value (R86) -/

section Enc
variable {f : F64} {e : Ext}

/-- The clamped value in quantization steps fits 32 bits. -/
theorem floor_clampedValue_mem (e : Ext) :
    0 ≤ ⌊clampedValue e * 2 ^ 32⌋ ∧ ⌊clampedValue e * 2 ^ 32⌋ < 2 ^ 32 := by
  have h0 := clampedValue_nonneg e
  have h1 := (clampedValue_le e).trans_lt clampHiValue_lt_one
  exact ⟨Int.floor_nonneg.mpr (by positivity), Int.floor_lt.mpr (by push_cast; linarith)⟩

theorem encFn_eq_floor (h : valueOf f = some e) : encFn f = (BitVec.ofInt 32 ⌊clampedValue e * 2 ^ 32⌋, 0#1) :=
  encFnAt_of_clamped (isNaN_of_valueOf h)
    ⟨valueOf_clamp h, clampedValue_nonneg e, (clampedValue_le e).trans_lt clampHiValue_lt_one⟩

theorem encFn_toNat (h : valueOf f = some e) : ((encFn f).1.toNat : ℤ) = ⌊clampedValue e * 2 ^ 32⌋ := by
  obtain ⟨hlo, hhi⟩ := floor_clampedValue_mem e
  rw [encFn_eq_floor h, BitVec.toNat_ofInt]
  omega

theorem encFn_of_floor {k : Word32} (h : valueOf f = some e) (hk : ⌊clampedValue e * 2 ^ 32⌋ = k.toNat) :
    encFn f = (k, 0#1) := by
  rw [encFn_eq_floor h, hk, BitVec.ofInt_natCast, BitVec.ofNat_toNat, BitVec.setWidth_eq]

/-- What the clamp makes 0 encodes to 0 (R82). -/
theorem encFn_of_clampedValue_zero (h : valueOf f = some e) (he : clampedValue e = 0) : encFn f = (0#32, 0#1) :=
  encFn_of_floor h (by rw [he, zero_mul, Int.floor_zero]; rfl)

/-- val(CLAMP_HI) in quantization steps (R87). -/
theorem floor_clampHiValue : ⌊clampHiValue * 2 ^ 32⌋ = nMax.toNat := by
  have hmax : nMax.toNat = 4294966866 := rfl
  rw [Int.floor_eq_iff, hmax, clampHiValue]
  norm_num

/-- What is not below CLAMP_HI encodes to N_MAX (R87). -/
theorem encFn_of_not_below (hn : isNaN f = false) (h : valueLt f Config.clampHi = false) : encFn f = (nMax, 0#1) := by
  obtain ⟨e, he⟩ := exists_valueOf hn
  rw [valueLt_eq he valueOf_clampHi] at h
  have htop : clampedValue e = clampHiValue :=
    (clampedValue_le e).antisymm ((clampedValue_of_ge (le_refl _)).symm.trans_le (clampedValue_mono h))
  exact encFn_of_floor he (htop ▸ floor_clampHiValue)

theorem encFn_of_ge {x : ℚ} (h : valueOf f = some (.real x)) (hx : clampHiValue ≤ x) : encFn f = (nMax, 0#1) :=
  encFn_of_not_below (isNaN_of_valueOf h)
    ((valueLt_eq h valueOf_clampHi).trans (decide_eq_false (not_lt.mpr hx)))

/-- The value of one quantization step up to N_MAX encodes to the number of the step (R91, log entry 14). -/
theorem encFn_of_step {x : ℚ} {k : Word32} (h : valueOf f = some (.real x)) (hk : k.toNat ≤ nMax.toNat)
    (hlo : (k.toNat : ℚ) / 2 ^ 32 ≤ x) (hhi : x < ((k.toNat : ℚ) + 1) / 2 ^ 32) : encFn f = (k, 0#1) := by
  have hx0 : 0 ≤ x := le_trans (by positivity) hlo
  rw [div_le_iff₀ (by positivity)] at hlo
  rw [lt_div_iff₀ (by positivity)] at hhi
  obtain hx | hx := le_total x clampHiValue
  · refine encFn_of_floor h ?_
    rw [clampedValue_of_between hx0 hx, Int.floor_eq_iff]
    exact ⟨by simpa using hlo, by simpa using hhi⟩
  · have hmax : ((nMax.toNat : ℤ) : ℚ) ≤ clampHiValue * 2 ^ 32 := Int.le_floor.mp floor_clampHiValue.ge
    have hstep : nMax.toNat < k.toNat + 1 := by
      rw [← Nat.cast_lt (α := ℚ)]
      push_cast at hmax ⊢
      linarith
    rw [BitVec.eq_of_toNat_eq (hk.antisymm (Nat.le_of_lt_succ hstep))]
    exact encFn_of_ge h hx

end Enc

/-! ### The obligations on the clamp -/

/-- Settles O11: the three cases of the clamp exclude each other, and each lands in the interval. -/
theorem clampIsIntoTheClosedInterval : Obligations.ClampIsIntoTheClosedInterval := by
  refine ⟨fun f hn => ⟨clamp_of_below, clamp_of_above, clamp_of_between, ?_⟩, ?_, ?_, ?_, ?_, ?_, ?_⟩
  · exact valueOf_clampAt valueOf_clampHi clampHiValue_nonneg hn
  · exact clamp_of_below (by decide +kernel)
  · exact clamp_of_above (by decide +kernel)
  · exact clamp_of_above (by decide +kernel)
  · exact clamp_of_between (by decide +kernel) (by decide +kernel)
  · exact clamp_of_between (by decide +kernel) (by decide +kernel)
  · have hneg : valueOf 0x8000000000000000#64 = some (.real 0) := by decide +kernel
    have hzero := clampedValue_of_nonpos (le_refl 0)
    rw [encFn_of_clampedValue_zero hneg hzero, encFn_of_clampedValue_zero valueOf_zero hzero]

end Sys2Proof.Machine
end

section
/-! PROOFS. ENC agrees with its closed form on the bit pattern (spec/40_encoder.md R86). -/

namespace Sys2Proof.Machine

section ClosedForm
variable {f : F64}

/-- A pattern with sign 1 that is no NaN is not above 0: the clamp makes it 0 (R6, R82). -/
theorem encFn_of_sign_one (hn : isNaN f = false) (hs : signOf f = 1#1) : encFn f = (0#32, 0#1) := by
  have hv : valueOf f = if isInfinite f then some .negInf else some (.real (-magnitudeOf f)) := by
    simp [valueOf, hn, hs]
  split at hv
  · exact encFn_of_clampedValue_zero hv rfl
  · refine encFn_of_clampedValue_zero hv (clampedValue_of_nonpos (neg_nonpos.mpr ?_))
    rw [magnitudeOf_eq_units]
    positivity

theorem valueLt_clampHi_iff (hn : isNaN f = false) (hs : signOf f = 0#1) :
    valueLt Config.clampHi f = true ↔ 0x3FEFFFFFCA501ACB < f.toNat :=
  valueLt_iff_toNat_lt (by decide) hn (by decide) hs

/-- A pattern with sign 0 that is not above CLAMP_HI has an exponent field of at most 1022 (R86). -/
theorem exponentOf_le_of_not_above (hs : signOf f = 0#1) (h : ¬ 0x3FEFFFFFCA501ACB < f.toNat) :
    exponentOf f ≤ 1022 := by
  have hf := toNat_of_sign_zero hs
  omega

theorem encFn_of_above (hn : isNaN f = false) (hs : signOf f = 0#1) (h : 0x3FEFFFFFCA501ACB < f.toNat) :
    encFn f = (nMax, 0#1) := by
  have hbelow : valueLt f Config.clampHi = true ↔ f.toNat < 0x3FEFFFFFCA501ACB :=
    valueLt_iff_toNat_lt hn (by decide) hs (by decide)
  exact encFn_of_not_below hn (Bool.eq_false_iff.mpr (mt hbelow.mp h.not_gt))

/-- The quantization step 2^(−32) is 2^1042 units of 2^(−1074). -/
theorem floor_units_mul (n : ℕ) : ⌊(n : ℚ) * 2 ^ (-1074 : ℤ) * 2 ^ 32⌋ = ((n / 2 ^ 1042 : ℕ) : ℤ) := by
  have hstep : (n : ℚ) * 2 ^ (-1074 : ℤ) * 2 ^ 32 = (n : ℚ) / ((2 ^ 1042 : ℕ) : ℚ) := by
    rw [Nat.cast_pow, Nat.cast_two, div_eq_mul_inv, mul_assoc, ← zpow_natCast, ← zpow_natCast, ← zpow_neg,
      ← zpow_add₀ two_ne_zero]
    rfl
  rw [hstep, Rat.floor_natCast_div_natCast, Int.natCast_div]

/-- An operand with sign 0 that is not above CLAMP_HI encodes to its whole number of quantization steps. -/
theorem encFn_of_not_above (hn : isNaN f = false) (hs : signOf f = 0#1) (h : ¬ 0x3FEFFFFFCA501ACB < f.toNat) :
    encFn f = (BitVec.ofNat 32 (unitsOf f / 2 ^ 1042), 0#1) := by
  have hE := exponentOf_le_of_not_above hs h
  have hfin : isInfinite f = false := by
    rw [Bool.eq_false_iff, ne_eq, isInfinite_iff]
    omega
  have hv := valueOf_of_finite hn hfin hs
  have hle : (unitsOf f : ℚ) * 2 ^ (-1074 : ℤ) ≤ clampHiValue := by
    rw [← valueLt_clampHi_iff hn hs, valueLt_real valueOf_clampHi hv] at h
    exact not_lt.mp h
  rw [encFn_eq_floor hv, clampedValue_of_between (by positivity) hle, floor_units_mul, BitVec.ofInt_natCast]

/-- The whole quantization steps of a subnormal are none, of a normal number its significand, shifted (R86). -/
theorem unitsOf_div (h : exponentOf f ≤ 1043) :
    unitsOf f / 2 ^ 1042 = if exponentOf f = 0 then 0 else (2 ^ 52 + fractionOf f) >>> (1043 - exponentOf f) := by
  rw [unitsOf]
  split
  · have hpow : 2 ^ 52 ≤ 2 ^ 1042 := pow_le_pow_right₀ one_le_two (by omega)
    exact Nat.div_eq_of_lt ((fractionOf_lt f).trans_le hpow)
  · have hexp : 1042 = (1043 - exponentOf f) + (exponentOf f - 1) := by omega
    rw [hexp, pow_add, Nat.mul_div_mul_right _ _ (by positivity), Nat.shiftRight_eq_div_pow]

/-- A shift by 53 places or more leaves nothing of a significand (R86). -/
theorem significand_shiftRight (f : F64) {sh : ℕ} (h : 53 ≤ sh) : (2 ^ 52 + fractionOf f) >>> sh = 0 := by
  have hM := fractionOf_lt f
  have hpow : 2 ^ 53 ≤ 2 ^ sh := Nat.pow_le_pow_right two_pos h
  rw [Nat.shiftRight_eq_div_pow]
  exact Nat.div_eq_of_lt (by omega)

/-- The lines of ENC_bits below the comparison with CLAMP_HI are the whole quantization steps of the operand (R86). -/
theorem encBits_of_not_above (hs : signOf f = 0#1) (h : ¬ 0x3FEFFFFFCA501ACB < f.toNat) :
    encBits f = (BitVec.ofNat 32 (unitsOf f / 2 ^ 1042), 0#1) := by
  have hE := exponentOf_le_of_not_above hs h
  have hsign : ¬ signOf f = 1#1 := by rw [hs]; decide
  rw [encBits, if_neg (by omega), if_neg hsign, if_neg h, unitsOf_div (by omega)]
  split
  · rfl
  split
  · rw [significand_shiftRight f ‹_›]
  · rfl

/-- ENC is ENC_bits, line by line (R86). -/
theorem encFn_eq_encBits (f : F64) : encFn f = encBits f := by
  cases hn : isNaN f
  case true =>
    have hfields : exponentOf f = 2047 ∧ fractionOf f ≠ 0 := by simpa [isNaN] using hn
    rw [encFn_of_isNaN hn, encBits, if_pos hfields]
  case false =>
    have hfields : ¬ (exponentOf f = 2047 ∧ fractionOf f ≠ 0) := by simpa [isNaN] using hn
    obtain hs | hs := bit_cases (signOf f)
    · by_cases habove : 0x3FEFFFFFCA501ACB < f.toNat
      · rw [encFn_of_above hn hs habove, encBits, if_neg hfields, if_neg (by rw [hs]; decide), if_pos habove, nMax]
      · rw [encFn_of_not_above hn hs habove, encBits_of_not_above hs habove]
    · rw [encFn_of_sign_one hn hs, encBits, if_neg hfields, if_pos hs]

end ClosedForm

/-- Settles O14: the lines of ENC_bits are the cases of the clamp, and the shift is the floor. -/
theorem encAgreesWithItsClosedForms : Obligations.EncAgreesWithItsClosedForms := by
  refine fun f => ⟨encFn_eq_encBits f, fun hn => ?_⟩
  obtain ⟨e, he⟩ := exists_valueOf hn
  exact ⟨_, valueOf_clamp he, encFn_eq_floor he, floor_clampedValue_mem e⟩

end Sys2Proof.Machine
end

section
/-! PROOFS. The properties of ENC that follow from its closed form (spec/40_encoder.md R80, R81, R87 to R92). -/

namespace Sys2Proof.Machine

/-! ### The range of ENC (R87, R91) -/

theorem encFn_ne_of_nMax_lt {n : Word32} (h : nMax.toNat < n.toNat) (f : F64) : (encFn f).1 ≠ n := by
  intro heq
  exact absurd (encFn_le_nMax f) (by rw [heq]; exact h.not_ge)

theorem unpack_nMax : unpack nMax = ⟨255#8, 255#8, 254#8, 82#8⟩ := by decide

theorem nMax_eq_pack : nMax = pack 255#8 255#8 254#8 82#8 := by decide

theorem encFn_one : encFn 0x3FF0000000000000#64 = (nMax, 0#1) :=
  encFn_of_not_below (by decide) (by decide +kernel)

theorem encFn_clampHi : encFn Config.clampHi = (nMax, 0#1) :=
  encFn_of_ge valueOf_clampHi (le_refl _)

theorem fl64_eps : fl64 (1 / 10 ^ 7) = Config.eps := clampConstantsAreRoundedFromTheDecimalLiteral.1

/-- Settles O15: the clamped value is at most val(CLAMP_HI), and is that for every operand not below it. -/
theorem encNeverExceedsItsMaximum : Obligations.EncNeverExceedsItsMaximum := by
  refine ⟨encFn_le_nMax, floor_clampHiValue, rfl, valueOf_clampHi, unpack_nMax, fun _ => encFn_of_not_below, ?_, ?_, ?_⟩
  · rw [encFn_one, nMax_eq_pack]
  · rw [fl64_eps, sub64_one_eps, encFn_clampHi, nMax_eq_pack]
  · exact encFn_ne_of_nMax_lt (by decide)

/-! ### DEC after ENC, and ENC after DEC (R88, R90) -/

/-- Settles O16: DEC gives ENC's whole number of quantization steps back, and the floor is what it misses by. -/
theorem roundTripErrorIsBelowOneQuantizationStep : Obligations.RoundTripErrorIsBelowOneQuantizationStep := by
  refine ⟨fun f x hv h0 hx => ⟨_, valueOf_decFn _, rfl, ?_⟩, fun f x hv hx h1 => ⟨_, valueOf_decFn _, ?_, ?_, ?_⟩⟩
  · have hN : (((encFn f).1.toNat : ℤ) : ℚ) = (⌊x * 2 ^ 32⌋ : ℤ) := by
      rw [encFn_toNat hv, clampedValue_of_between h0 hx]
    have hle := Int.floor_le (x * 2 ^ 32)
    have hlt := Int.lt_floor_add_one (x * 2 ^ 32)
    rw [← hN, Int.cast_natCast] at hle hlt
    constructor <;> linarith
  · rw [encFn_of_ge hv hx.le]
  · rw [encFn_of_ge hv hx.le]
    linarith
  · norm_num [nMax]

/-- Settles O18: a decoded N up to N_MAX is the start of its own quantization step, and one above it is above CLAMP_HI. -/
theorem encUndoesDecUpToItsMaximum : Obligations.EncUndoesDecUpToItsMaximum := by
  refine ⟨fun n => ?_, by decide, by decide⟩
  have hv := valueOf_decFn n
  obtain hn | hn := le_or_gt n.toNat nMax.toNat
  · rw [min_eq_left hn, BitVec.ofNat_toNat, BitVec.setWidth_eq]
    exact encFn_of_step hv hn (le_refl _) (by gcongr; linarith)
  · rw [min_eq_right hn.le, BitVec.ofNat_toNat, BitVec.setWidth_eq]
    refine encFn_of_ge hv ?_
    have hnext : (4294966867 : ℚ) ≤ n.toNat := by exact_mod_cast hn
    rw [clampHiValue, le_div_iff₀ (by positivity)]
    linarith

/-- Settles O19: a quantization step has one number, N_MAX bounds the range, and +0.0 and the smallest subnormal share
their encoding. -/
theorem encIsNeitherInjectiveNorOnto : Obligations.EncIsNeitherInjectiveNorOnto := by
  refine ⟨fun _ _ _ => encFn_of_step, fun _ f hn => encFn_ne_of_nMax_lt hn f, 0x0000000000000000#64,
    0x0000000000000001#64, ?_, ?_, ?_⟩
  · decide
  · decide +kernel
  · decide +kernel

/-! ### Monotonicity (R89) -/

theorem encFn_mono {f₁ f₂ : F64} (h₁ : isNaN f₁ = false) (h₂ : isNaN f₂ = false) (h : valueLt f₂ f₁ = false) :
    (encFn f₁).1.toNat ≤ (encFn f₂).1.toNat := by
  obtain ⟨e₁, he₁⟩ := exists_valueOf h₁
  obtain ⟨e₂, he₂⟩ := exists_valueOf h₂
  rw [valueLt_eq he₂ he₁] at h
  rw [← Nat.cast_le (α := ℤ), encFn_toNat he₁, encFn_toNat he₂]
  exact Int.floor_le_floor (mul_le_mul_of_nonneg_right (clampedValue_mono h) (by positivity))

/-- The first channel is the most significant one: it follows the order of N (R10). -/
theorem unpack_r_mono {m n : Word32} (h : m.toNat ≤ n.toNat) : (unpack m).r.toNat ≤ (unpack n).r.toNat := by
  have hm := m.isLt
  have hn := n.isLt
  simp only [unpack, BitVec.extractLsb'_toNat, Nat.shiftRight_eq_div_pow]
  omega

/-- Settles O17: the clamp and the floor keep the order, and the example is evaluated. -/
theorem encIsMonotone : Obligations.EncIsMonotone := by
  refine ⟨fun f₁ f₂ h₁ h₂ h => ?_, ?_, ?_, ?_, ?_⟩
  · have hN := encFn_mono h₁ h₂ h
    exact ⟨hN, unpack_r_mono hN⟩
  all_goals decide +kernel

/-! ### Corner cases (R80, R92) -/

/-- What is below one quantization step encodes to 0. -/
theorem encFn_of_lt_step {f : F64} {x : ℚ} (h : valueOf f = some (.real x)) (hx : x < 1 / 2 ^ 32) :
    encFn f = (0#32, 0#1) := by
  obtain h0 | h0 := le_total x 0
  · exact encFn_of_clampedValue_zero h (clampedValue_of_nonpos h0)
  · exact encFn_of_step h (Nat.zero_le _) (by simpa using h0) (by simpa using hx)

/-- Settles O21: each corner is a step, an end of the clamp or a NaN, and 0.5 is evaluated. -/
theorem encCornerCases : Obligations.EncCornerCases := by
  refine ⟨fun _ _ => encFn_of_lt_step, ?_, ?_, ?_, fun _ => encFn_of_not_below, ?_, encFn_one,
    fun _ => encFn_of_isNaN, ?_⟩
  · exact encFn_of_clampedValue_zero (e := .negInf) (by decide +kernel) rfl
  · decide +kernel
  · decide +kernel
  · exact encFn_of_not_below (by decide) (by decide +kernel)
  · decide +kernel

/-- Settles O20: the four digits and the rounded scaled value, evaluated. -/
theorem encDigitsAreFlooredNotRounded : Obligations.EncDigitsAreFlooredNotRounded := by
  have hdigits : encFn 0x3FDFFFFFFFFFFFFF#64 = (pack 127#8 255#8 255#8 255#8, 0#1) := by decide +kernel
  exact ⟨hdigits, by rw [hdigits]; decide, by decide +kernel, by decide +kernel⟩

/-! ### The instruction (R80, R81) -/

theorem invalidFlag_eq_one_iff (f : F64) : invalidFlag f = 1#1 ↔ isNaN f = true := by
  cases hn : isNaN f <;> simp [invalidFlag, hn]

/-- On a block that has been reset `enc` writes its response (R80). -/
theorem exec_enc_of_some {s : State} {r : Resp} (f : F64) (hr : s.resp = some r) :
    exec (.enc f) s = .next (writeResp (encResp f) s) :=
  exec_of_some _ hr

/-- Settles O29: the instruction is one write of the registers, which leaves the schedule. -/
theorem encWritesItsResponse : Obligations.EncWritesItsResponse := by
  intro f s r hr
  refine ⟨_, exec_enc_of_some f hr, ?_, writeResp_host _ s⟩
  rw [writeResp_resp, encResp, encFn_invalid, invalidFlag]

/-- Settles O22: the same write, with the result that R81 gives a NaN. -/
theorem nanOperandCompletesWithTheFlag : Obligations.NaNOperandCompletesWithTheFlag := by
  refine ⟨fun f s r hn hr => ⟨_, exec_enc_of_some f hr, ?_, ?_⟩, fun f => ?_⟩
  · rw [writeResp_resp, encResp, encFn_of_isNaN hn]
    rfl
  · exact (respShowsFault_enc f).trans hn
  · rw [encFn_invalid, invalidFlag_eq_one_iff]

end Sys2Proof.Machine
end

section
/-! PROOFS. The properties of DEC that follow from its exactness: the closed form on the bit pattern, the range, the order,
and decoding after encoding (spec/41_decoder.md R100 to R111). -/

namespace Sys2Proof.Machine

/-! ### Exactness (R104, R105) -/

/-- Settles O23: each addition appends one digit to the top bits of N, which with their weight fit 53 bits. -/
theorem decIsExact : Obligations.DecIsExact := by
  refine ⟨fun q => ?_, ?_, ?_, ?_, fun d => ⟨?_, ?_, ?_⟩⟩
  · have hq := q.isLt
    exact ⟨valueOf_accZero q, valueOf_accOne q, by omega, valueOf_accTwo q, by omega, valueOf_accThree q, hq,
      valueOf_decFn q⟩
  · simpa using valueOf_to64 (n := 256) (by norm_num)
  · simpa using valueOf_to64 (n := 65536) (by norm_num)
  · simpa using valueOf_to64 (n := 16777216) (by norm_num)
  · exact valueOf_weighted d (k := 8) (by omega)
  · exact valueOf_weighted d (k := 16) (by omega)
  · exact valueOf_weighted d (k := 24) (by omega)

/-! ### The closed form (R106) -/

/-- A positive number has at most one pattern (R6). -/
theorem eq_of_valueOf_pos {a b : F64} {x : ℚ} (ha : valueOf a = some (.real x)) (hb : valueOf b = some (.real x))
    (hx : 0 < x) : a = b := by
  obtain ⟨hsa, hua⟩ := units_of_valueOf_pos ha hx
  obtain ⟨hsb, hub⟩ := units_of_valueOf_pos hb hx
  have hunits : unitsOf a = unitsOf b := by
    rw [← Nat.cast_inj (R := ℚ)]
    exact mul_right_cancel₀ (zpow_ne_zero _ two_ne_zero) (hua.symm.trans hub)
  have hab := unitsOf_lt_iff hsa hsb
  have hba := unitsOf_lt_iff hsb hsa
  exact BitVec.eq_of_toNat_eq (by omega)

section ClosedForm
variable {q : Word32}

theorem toNat_pos_of_ne_zero (hq : q ≠ 0#32) : 0 < q.toNat :=
  Nat.pos_of_ne_zero (by simpa [← BitVec.toNat_inj] using hq)

theorem log2_toNat_le (hq : q ≠ 0#32) : q.toNat.log2 ≤ 31 :=
  Nat.le_of_lt_succ ((Nat.log2_lt (toNat_pos_of_ne_zero hq).ne').mpr q.isLt)

/-- Shifted so that its leading 1 stands at bit 52, Q is the significand of a normal number (R106). -/
theorem significand_bounds (hq : q ≠ 0#32) :
    2 ^ 52 ≤ q.toNat * 2 ^ (52 - q.toNat.log2) ∧ q.toNat * 2 ^ (52 - q.toNat.log2) < 2 ^ 53 := by
  have hp := log2_toNat_le hq
  have hlo : 2 ^ q.toNat.log2 ≤ q.toNat := Nat.log2_self_le (toNat_pos_of_ne_zero hq).ne'
  have hhi : q.toNat < 2 ^ (q.toNat.log2 + 1) := Nat.lt_log2_self
  constructor
  · calc 2 ^ 52 = 2 ^ q.toNat.log2 * 2 ^ (52 - q.toNat.log2) := by rw [← pow_add]; congr 1; omega
      _ ≤ _ := Nat.mul_le_mul_right _ hlo
  · calc _ < 2 ^ (q.toNat.log2 + 1) * 2 ^ (52 - q.toNat.log2) := Nat.mul_lt_mul_of_pos_right hhi (by positivity)
      _ = 2 ^ 53 := by rw [← pow_add]; congr 1; omega

/-- DEC_bits as a number: exponent field 991 + p, and the shifted Q without its leading 1 (R106). -/
theorem decBits_eq_ofNat (hq : q ≠ 0#32) :
    decBits q =
      BitVec.ofNat 64 ((991 + q.toNat.log2) * 2 ^ 52 + (q.toNat * 2 ^ (52 - q.toNat.log2) - 2 ^ 52)) := by
  have hp := log2_toNat_le hq
  obtain ⟨hlo, hhi⟩ := significand_bounds hq
  rw [decBits, if_neg hq]
  apply BitVec.eq_of_toNat_eq
  simp only [append_toNat, BitVec.toNat_ofNat, Nat.shiftLeft_eq]
  omega

theorem exponentOf_decBits (hq : q ≠ 0#32) : exponentOf (decBits q) = 991 + q.toNat.log2 := by
  have hp := log2_toNat_le hq
  have hS := significand_bounds hq
  obtain ⟨-, hexp, -⟩ := fields_of_nat (991 + q.toNat.log2) (q.toNat * 2 ^ (52 - q.toNat.log2) - 2 ^ 52) (by omega)
    (by omega)
  rw [decBits_eq_ofNat hq, hexp]

/-- The value of DEC_bits: 2^(p − 32) times 1.(the bits of Q below its leading 1) (R106). -/
theorem valueOf_decBits (hq : q ≠ 0#32) :
    valueOf (decBits q) = some (.real (2 ^ ((q.toNat.log2 : ℤ) - 32) * ((q.toNat : ℚ) / 2 ^ q.toNat.log2))) := by
  have hp := log2_toNat_le hq
  obtain ⟨hlo, hhi⟩ := significand_bounds hq
  have hexp : ((991 + q.toNat.log2 : ℕ) : ℤ) - 1075 =
      ((q.toNat.log2 : ℤ) - 32) - (q.toNat.log2 : ℤ) - ((52 - q.toNat.log2 : ℕ) : ℤ) := by omega
  rw [decBits_eq_ofNat hq, valueOf_of_nat _ _ (by omega) (by omega), if_neg (by omega), Nat.add_sub_cancel' hlo, hexp,
    zpow_sub₀ two_ne_zero, zpow_sub₀ two_ne_zero, zpow_natCast, zpow_natCast]
  push_cast
  field_simp

end ClosedForm

/-- DEC is DEC_bits: for Q not 0 both have the positive value Q·2^(−32) (R106). -/
theorem decFn_eq_decBits (q : Word32) : decFn q = decBits q := by
  obtain rfl | hq := eq_or_ne q 0#32
  · exact decFn_zero
  · have hpos : (0 : ℚ) < q.toNat := Nat.cast_pos.mpr (toNat_pos_of_ne_zero hq)
    have hvalue : (2 : ℚ) ^ ((q.toNat.log2 : ℤ) - 32) * ((q.toNat : ℚ) / 2 ^ q.toNat.log2) = q.toNat / 2 ^ 32 := by
      rw [zpow_sub₀ two_ne_zero, zpow_natCast]
      field_simp
    exact eq_of_valueOf_pos (valueOf_decFn q) (hvalue ▸ valueOf_decBits hq) (by positivity)

/-- Settles O24: the two patterns have one value, and the fields of DEC_bits say which. -/
theorem decAgreesWithItsClosedForm : Obligations.DecAgreesWithItsClosedForm :=
  fun q => ⟨decFn_eq_decBits q, fun hq => ⟨log2_toNat_le hq, exponentOf_decBits hq, valueOf_decBits hq⟩⟩

/-! ### The range of DEC (R108, R109) -/

theorem decFn_max : decFn 0xFFFFFFFF#32 = 0x3FEFFFFFFFE00000#64 := by
  rw [decFn_eq_decBits]
  decide

/-- Settles O25: the value is N·2^(−32) for an N of 32 bits, and the closed form gives the largest. -/
theorem decResultIsZeroOrPositiveNormalBelowOne : Obligations.DecResultIsZeroOrPositiveNormalBelowOne := by
  refine ⟨fun q => ⟨_, valueOf_decFn q, rfl, by positivity, ?_, ?_⟩, decFn_zero, fun q hq => ?_, decFn_max, ?_, ?_, ?_⟩
  · have hq : (q.toNat : ℚ) < 2 ^ 32 := by exact_mod_cast q.isLt
    exact (div_lt_one (by positivity)).mpr hq
  · have hq : (q.toNat : ℚ) + 1 ≤ 2 ^ 32 := by exact_mod_cast q.isLt
    gcongr
    linarith
  · obtain ⟨hsign, hlow, hhigh, -⟩ := fields_of_decFn hq
    exact ⟨hsign, hlow, hhigh⟩
  · rw [← decFn_max, valueOf_decFn]
    norm_num
  · norm_num
  · norm_num

/-! ### Monotonicity (R110) -/

theorem valueLt_decFn_iff (q₁ q₂ : Word32) : valueLt (decFn q₁) (decFn q₂) = true ↔ q₁.toNat < q₂.toNat := by
  rw [valueLt_real (valueOf_decFn q₁) (valueOf_decFn q₂), div_lt_div_iff_of_pos_right (by positivity), Nat.cast_lt]

theorem decFn_injective : Function.Injective decFn := by
  intro q₁ q₂ h
  have h₁₂ := valueLt_decFn_iff q₁ q₂
  have h₂₁ := valueLt_decFn_iff q₂ q₁
  rw [h, valueLt_decFn_iff] at h₁₂ h₂₁
  exact BitVec.eq_of_toNat_eq (by omega)

/-- Settles O26: the value N·2^(−32) is ordered as N, and each channel has a positive weight in N. -/
theorem decIsStrictlyIncreasingAndInjective : Obligations.DecIsStrictlyIncreasingAndInjective := by
  refine ⟨fun q₁ q₂ => (valueLt_decFn_iff q₁ q₂).mpr, fun c d x y z h => ?_, fun _ _ h => decFn_injective h⟩
  simp only [valueLt_decFn_iff, pack_toNat]
  omega

/-! ### DEC after ENC (R111) -/

/-- Settles O27: ENC's N is the floor of the clamped value's quantization steps, and DEC gives N·2^(−32). -/
theorem decodingAnEncodedValueNeverOvershoots : Obligations.DecodingAnEncodedValueNeverOvershoots := by
  intro f hn
  obtain ⟨e, he⟩ := exists_valueOf hn
  refine ⟨_, valueOf_clamp he, ?_, (div_le_iff₀ (by positivity)).mpr (Int.floor_le _)⟩
  rw [valueOf_decFn, ← encFn_toNat he, Int.cast_natCast]

/-! ### The instruction (R100) -/

/-- A DEC response shows no fault, so its write changes the registers only (R100, R141). -/
theorem writeResp_decResp (r g b a : Byte) (s : State) :
    writeResp (decResp r g b a) s = { s with resp := some (decResp r g b a) } := by
  rw [writeResp, respShowsFault_dec, if_neg Bool.false_ne_true]

/-- Settles O30: the instruction is one write of a DEC response. -/
theorem decWritesItsResponse : Obligations.DecWritesItsResponse := by
  intro r g b a s old hs
  rw [exec_of_some _ hs, instrResp, writeResp_decResp, decResp]

/-- Settles O31: the closed form, evaluated on each quadruple. -/
theorem decCornerCases : Obligations.DecCornerCases := by
  simp only [Obligations.DecCornerCases, decFn_eq_decBits]
  decide

end Sys2Proof.Machine
end

section
/-! PROOFS. The cycles of the interface: one cycle, a list of cycles, and a run (spec/44_interface_cycle.md R121 to R125,
R129; spec/60_exceptions.md R141). -/

namespace Sys2Proof.Machine

/-! ### One cycle (R121, R122, R125) -/

/-- A response of an idle cycle shows no fault, so its write changes the registers only (R122, R141). -/
theorem writeResp_idleResp (r : Resp) (s : State) : writeResp (idleResp r) s = { s with resp := some (idleResp r) } := by
  rw [writeResp, respShowsFault_idle, if_neg Bool.false_ne_true]

/-- Settles O28: the instruction is one write of the registers it finds, but for RESP_VALID. -/
theorem nopClearsValidAndHoldsTheRest : Obligations.NopClearsValidAndHoldsTheRest := by
  intro s r hr
  rw [exec_of_some _ hr, instrResp, writeResp_idleResp, idleResp]

/-- Settles O34: the step is the clock edge, and an edge with rst = 0 runs the request. -/
theorem stepRunsTheDecodedRequest : Obligations.StepRunsTheDecodedRequest :=
  fun s p rest hp => (step_cycle p s rest).trans (clockEdge_run hp _)

/-- A cycle with rst = 0 and no request, on a block that has been reset, only clears RESP_VALID (R122). -/
theorem step_cycle_idle {s : State} {r : Resp} {p : Pins} (hr : s.resp = some r) (hrst : p.rst = 0#1)
    (hreq : p.req.valid = 0#1) (rest : List HostEvent) :
    step { s with host := .cycle p :: rest } = .next { s with resp := some (idleResp r), host := rest } := by
  rw [step_cycle_run hr hrst rest, instrResp_of_idle hreq, writeResp_idleResp]

/-- Settles O35: each case is one of the three kinds of cycle: a reset, a refusal, or the run of the request. -/
theorem stepFollowsTheStepFunctionOfTheSpec : Obligations.StepFollowsTheStepFunctionOfTheSpec := by
  refine fun s p rest => ⟨fun hp => ⟨_, step_cycle_reset hp s rest, takeReset_resp _⟩, fun hp hs => ?_, fun hp r hr => ?_⟩
  · obtain ⟨-, -, hrefused, -⟩ := unresetBlockHasNoStepButAReset s hs
    exact hrefused p rest hp
  · obtain hv | hv := bit_cases p.req.valid
    · exact ⟨_, step_cycle_idle hr hp hv rest, by rw [if_pos hv, idleResp]⟩
    · have hs : s.resp ≠ none := hr ▸ Option.some_ne_none r
      refine ⟨_, step_cycle_request hs hp hv rest, ?_⟩
      rw [writeResp_resp, hv, if_neg (by decide), responseTo, BitVec.setWidth_eq_extractLsb' (by decide)]

/-- A cycle without a request carries `nop`, whatever its other inputs are (R63, R125). -/
theorem pinsInstr_of_idle {p : Pins} (h : p.req.valid = 0#1) : pinsInstr p = .nop :=
  (pinsInstr_eq p).trans (if_pos h)

/-- Settles O41: a reset edge reads no request, and two idle cycles carry the same instruction. -/
theorem inputsThatAreNotSampledHaveNoEffect : Obligations.InputsThatAreNotSampledHaveNoEffect := by
  rintro s p p' rest hrst (hp | ⟨hv, hv'⟩)
  · rw [step_cycle_reset hp, step_cycle_reset (hrst ▸ hp)]
  · rw [step_cycle, step_cycle, clockEdge, clockEdge, hrst, pinsInstr_of_idle hv, pinsInstr_of_idle hv']

/-! ### The end of the schedule (R129) -/

/-- The one refusal of an instruction is that the block is unreset (R33). -/
theorem exec_eq_refused {i : Instr} {s : State} {e : Refusal} (h : exec i s = .refused e) : e = .unreset := by
  cases hs : s.resp with
  | none =>
    rw [exec_of_none i hs] at h
    cases h
    rfl
  | some r =>
    rw [exec_of_some i hs] at h
    cases h

/-- The one refusal of an event of the host is that the block is unreset (R33, R173). -/
theorem hostEvent_eq_refused {ev : HostEvent} {s : State} {e : Refusal} (h : hostEvent ev s = .refused e) :
    e = .unreset := by
  cases ev with
  | cycle p =>
    obtain hp | hp := bit_cases p.rst
    · exact exec_eq_refused ((clockEdge_run hp s).symm.trans h)
    · cases (clockEdge_reset hp s).symm.trans h
  | clockStopped => cases h
  | powerLoss => cases h

/-- Settles O44: an event of the host is refused only by another name. -/
theorem runEndsWhenTheHostDrivesNothing : Obligations.RunEndsWhenTheHostDrivesNothing := by
  refine ⟨fun s hs => step_of_nil hs, fun s h => ?_⟩
  cases hs : s.host with
  | nil => rfl
  | cons ev rest =>
    have hname := hostEvent_eq_refused ((step_of_cons hs).symm.trans h)
    cases hname

/-! ### Steps and what is seen of them (R129) -/

section Step
variable {s t : State}

theorem stateAfter_succ_of_step (h : step s = .next t) (k : ℕ) : stateAfter (k + 1) s = stateAfter k t := by
  rw [stateAfter, h]

theorem cleanRun_succ_of_step (h : step s = .next t) (k : ℕ) :
    cleanRun (k + 1) s = (!stateShowsFault t && cleanRun k t) := by
  rw [cleanRun, trace, h, List.all_cons, cleanRun]

/-- Where there are `k + 1` steps, there is a first one and `k` steps follow it. -/
theorem stateAfter_succ_eq_some {k : ℕ} (h : stateAfter (k + 1) s = some t) :
    ∃ u, step s = .next u ∧ stateAfter k u = some t := by
  rw [stateAfter] at h
  split at h
  · next u hu => exact ⟨u, hu, h⟩
  · cases h

/-- What is seen last, with the present state seen first, is what the state after the steps shows. -/
theorem getLast?_observation {k : ℕ} (h : stateAfter k s = some t) :
    (outputPorts s :: observation k s).getLast? = some (outputPorts t) := by
  induction k generalizing s with
  | zero =>
    cases h
    rfl
  | succ k ih =>
    obtain ⟨u, hu, hk⟩ := stateAfter_succ_eq_some h
    rw [observation_succ_of_step hu, List.getLast?_cons_cons, ih hk]

end Step

/-! ### Cycles on a block that has been reset (R121, R123, R124) -/

/-- A block that has been reset completes every cycle, which is one write of its registers (R121, R140). -/
theorem step_cycle_of_reset_block {s : State} (hs : s.resp ≠ none) (p : Pins) (rest : List HostEvent) :
    ∃ r, step { s with host := .cycle p :: rest } = .next (writeResp r { s with host := rest }) := by
  obtain ⟨r, hr⟩ := Option.ne_none_iff_exists'.mp hs
  obtain hp | hp := bit_cases p.rst
  · exact ⟨_, step_cycle_run hr hp rest⟩
  · exact ⟨_, step_cycle_reset hp s rest⟩

/-- A list of cycles completes, each with registers to observe, and leaves a block that has been reset. -/
theorem cycles_complete (ps : List Pins) {s : State} (hs : s.resp ≠ none) (rest : List HostEvent) :
    ∃ (t : State) (rs : List Resp), stateAfter ps.length { s with host := ps.map .cycle ++ rest } = some t ∧
      t.resp ≠ none ∧ t.host = rest ∧
      observation ps.length { s with host := ps.map .cycle ++ rest } = rs.map some ∧ rs.length = ps.length := by
  induction ps generalizing s with
  | nil => exact ⟨_, [], rfl, hs, rfl, rfl, rfl⟩
  | cons p ps ih =>
    obtain ⟨r, hstep⟩ := step_cycle_of_reset_block hs p (ps.map .cycle ++ rest)
    obtain ⟨t, rs, hafter, hresp, hhost, hobs, hlen⟩ := ih (s := writeResp r s) (Option.some_ne_none r)
    exact ⟨t, r :: rs, (stateAfter_succ_of_step hstep _).trans hafter, hresp, hhost,
      (observation_succ_of_step hstep _).trans (congrArg (some r :: ·) hobs), congrArg (· + 1) hlen⟩

/-- Settles O45: the induction over the schedule, without what is observed on the way. -/
theorem onceResetTheBlockNeverStopsOnACycle : Obligations.OnceResetTheBlockNeverStopsOnACycle := by
  intro ps s rest hs
  obtain ⟨t, -, hafter, hresp, hhost, -, -⟩ := cycles_complete ps hs rest
  exact ⟨t, hafter, hresp, hhost⟩

/-- Idle cycles hold the registers, and any of them clears RESP_VALID (R122). -/
theorem stateAfter_idle {idle : List Pins} (hidle : ∀ i ∈ idle, i.rst = 0#1 ∧ i.req.valid = 0#1) {s : State} {r : Resp}
    (hr : s.resp = some r) (rest : List HostEvent) :
    stateAfter idle.length { s with host := idle.map .cycle ++ rest } =
      some { s with resp := some (if idle = [] then r else idleResp r), host := rest } := by
  induction idle generalizing s r with
  | nil => rw [if_pos rfl, ← hr]; rfl
  | cons i idle ih =>
    obtain ⟨⟨hrst, hreq⟩, htail⟩ := List.forall_mem_cons.mp hidle
    have hstep := step_cycle_idle hr hrst hreq (idle.map .cycle ++ rest)
    have hheld : (if idle = [] then idleResp r else idleResp (idleResp r)) = idleResp r := ite_self _
    have hafter := ih htail (s := { s with resp := some (idleResp r) }) rfl
    rw [hheld] at hafter
    rw [if_neg (List.cons_ne_nil i idle)]
    exact (stateAfter_succ_of_step hstep _).trans hafter

@[simp] theorem responseTo_valid (q : Request) : (responseTo q).valid = 1#1 := by
  rw [responseTo]
  split <;> rfl

/-- Settles O48: the request's step leaves its response, and the idle cycles hold it. -/
theorem responseStaysReadableThroughIdleCycles : Obligations.ResponseStaysReadableThroughIdleCycles := by
  intro idle s p rest hs hrst hreq hidle
  have hstep := step_cycle_request hs hrst hreq (idle.map .cycle ++ rest)
  have hafter := stateAfter_idle hidle (writeResp_resp (responseTo p.req) s) rest
  refine ⟨_, (stateAfter_succ_of_step hstep _).trans hafter, ?_⟩
  split
  · rw [← responseTo_valid p.req]
  · rfl

/-! ### The mark and clean runs (R129, R141) -/

/-- The registers written are the ones that show the fault or not (R141). -/
@[simp] theorem stateShowsFault_writeResp (x : Resp) (s : State) :
    stateShowsFault (writeResp x s) = respShowsFault x :=
  rfl

/-- A step from a state that is marked if it shows the fault leaves no mark exactly when there was none and the next state
shows no fault (R141). -/
theorem faultMark_eq_none_iff_of_step {s t : State} (hs : s.faultMark = none → stateShowsFault s = false)
    (h : step s = .next t) : t.faultMark = none ↔ s.faultMark = none ∧ stateShowsFault t = false := by
  obtain ⟨e, rest, -, ⟨p, -, -, rfl⟩ | ⟨p, r, -, -, -, rfl⟩ | ⟨-, rfl⟩ | ⟨-, rfl⟩⟩ := step_eq_next h
  · exact (and_iff_left rfl).symm
  · rw [writeResp_faultMark, stateShowsFault_writeResp]
    cases respShowsFault (instrResp (pinsInstr p) r) <;> simp
  · exact ⟨fun hm => ⟨hm, hs hm⟩, And.left⟩
  · exact (and_iff_left rfl).symm

/-- The same for any number of steps: no mark after them exactly when there was none and the steps were clean. -/
theorem faultMark_eq_none_iff_cleanRun {k : ℕ} {s t : State} (hs : s.faultMark = none → stateShowsFault s = false)
    (h : stateAfter k s = some t) : t.faultMark = none ↔ s.faultMark = none ∧ cleanRun k s = true := by
  induction k generalizing s with
  | zero =>
    cases h
    exact (and_iff_left rfl).symm
  | succ k ih =>
    obtain ⟨u, hu, hk⟩ := stateAfter_succ_eq_some h
    have hmark := faultMark_eq_none_iff_of_step hs hu
    rw [ih (fun hm => (hmark.mp hm).2) hk, hmark, cleanRun_succ_of_step hu, Bool.and_eq_true, Bool.not_eq_true', and_assoc]

/-- Settles O54: the run starts unmarked, so only its own steps count. -/
theorem markTellsCleanRunsFromTheRest : Obligations.MarkTellsCleanRunsFromTheRest := by
  intro k s t hmark hshows h
  rw [faultMark_eq_none_iff_cleanRun (fun _ => hshows) h, and_iff_right hmark]

/-! ### Runs (R129) -/

/-- Events are a run exactly when they are a reset cycle followed by cycles and nothing else (R129, R175). -/
theorem isRun_iff (es : List HostEvent) :
    isRun es = true ↔ ∃ (p : Pins) (ps : List Pins), p.rst = 1#1 ∧ es = .cycle p :: ps.map .cycle := by
  refine ⟨isRun_eq_true, ?_⟩
  rintro ⟨p, ps, hp, rfl⟩
  simp [isRun, isCycle, hp]

theorem respShowsFault_eq_true_iff (r : Resp) : respShowsFault r = true ↔ r.valid = 1#1 ∧ r.invalid = 1#1 := by
  rw [respShowsFault, Bool.and_eq_true, beq_iff_eq, beq_iff_eq]

/-- Whether a state shows the fault is seen at its output ports (R28, R141). -/
theorem stateShowsFault_eq_any (s : State) : stateShowsFault s = (outputPorts s).any respShowsFault := by
  rw [stateShowsFault, outputPorts]
  cases s.resp <;> rfl

/-- Whether a run is clean is seen in its observation (R129). -/
theorem cleanRun_iff_of_observation {k : ℕ} {s : State} {rs : List Resp} (h : observation k s = rs.map some) :
    cleanRun k s = true ↔ ∀ r ∈ rs, ¬ (r.valid = 1#1 ∧ r.invalid = 1#1) := by
  have hclean : cleanRun k s = (observation k s).all fun o => !o.any respShowsFault := by
    rw [cleanRun, observation, List.all_map]
    simp only [stateShowsFault_eq_any, Function.comp_def]
  rw [hclean, h, List.all_map, List.all_eq_true]
  simp only [← respShowsFault_eq_true_iff, Function.comp_apply, Option.any_some, Bool.not_eq_true', Bool.not_eq_true]

/-- Settles O58: the reset cycle reaches the reset state, unmarked and without fault, and from there the cycles complete
and the mark tells what they showed. -/
theorem observationOfARunHasOneStateForEachCycle : Obligations.ObservationOfARunHasOneStateForEachCycle := by
  refine ⟨isRun_iff, fun es s h => ?_, fun es s hrun hmark => ?_⟩
  · rw [runObservation, h, if_neg Bool.false_ne_true]
  obtain ⟨p, ps, hp, rfl⟩ := (isRun_iff es).mp hrun
  have hstep := step_cycle_reset hp s (ps.map .cycle)
  obtain ⟨t, rs, hafter, -, -, hobs, hlen⟩ := cycles_complete ps (s := takeReset s) (Option.some_ne_none _) []
  rw [List.append_nil] at hafter hobs
  have hlast : ((Resp.reset :: rs).map some).getLast? = some t.resp := by
    rw [List.map_cons, ← hobs]
    exact getLast?_observation hafter
  have hclean := faultMark_eq_none_iff_cleanRun (fun _ => rfl) hafter
  refine ⟨Resp.reset :: rs, t, ?_, ?_, rfl, ?_, ?_, ?_⟩
  · rw [runObservation, if_pos hrun, List.length_cons, List.length_map, observation_succ_of_step hstep]
    exact congrArg (fun os => some (some Resp.reset :: os)) hobs
  · rw [List.length_cons, List.length_cons, List.length_map, hlen]
  · rw [List.length_cons, List.length_map, stateAfter_succ_of_step hstep]
    exact hafter
  · rw [List.getLast?_map, Option.map_eq_some_iff] at hlast
    obtain ⟨r, hr, hresp⟩ := hlast
    rw [hr, hresp]
  · rw [hclean, cleanRun_iff_of_observation hobs, List.forall_mem_cons]
    exact and_congr (iff_of_true hmark (by decide)) Iff.rfl

end Sys2Proof.Machine
end


section
/-! PROOFS. No exception, the sticky mark, copies of the block, and power (spec/60_exceptions.md R140, R141, R150, R152). -/

namespace Sys2Proof.Machine

/-! ### No exception (R140) -/

/-- An instruction writes the registers or is refused; it does not end in a fault (R140). -/
theorem exec_ne_fault (i : Instr) (s : State) (e : Fault) : exec i s ≠ .fault e := by
  cases hs : s.resp with
  | none =>
    rw [exec_of_none i hs]
    exact nofun
  | some r =>
    rw [exec_of_some i hs]
    exact nofun

/-- An event of the host is an instruction, or it answers a next state (R121, R152). -/
theorem hostEvent_ne_fault (ev : HostEvent) (s : State) (e : Fault) : hostEvent ev s ≠ .fault e := by
  cases ev with
  | cycle p =>
    rw [hostEvent]
    obtain hp | hp := bit_cases p.rst
    · rw [clockEdge_run hp]
      exact exec_ne_fault _ s e
    · rw [clockEdge_reset hp]
      exact nofun
  | clockStopped => exact nofun
  | powerLoss => exact nofun

/-- Settles O37: a step is an event of the host, or it is refused because the host drives none. -/
theorem noStepEndsInAFault : Obligations.NoStepEndsInAFault := by
  refine ⟨fun s e => ?_, exec_ne_fault⟩
  cases hs : s.host with
  | nil =>
    rw [step_of_nil hs]
    exact nofun
  | cons ev rest =>
    rw [step_of_cons hs]
    exact hostEvent_ne_fault ev _ e

/-! ### The sticky mark (R141) -/

/-- A step keeps the mark as it was, or it reaches a state that shows the fault and marks it (R141). -/
theorem faultMark_of_step {s t : State} (h : step s = .next t) :
    t.faultMark = s.faultMark ∨ (t.faultMark = some .respInvalid ∧ stateShowsFault t = true) := by
  obtain ⟨e, rest, -, ⟨p, -, -, rfl⟩ | ⟨p, r, -, -, -, rfl⟩ | ⟨-, rfl⟩ | ⟨-, rfl⟩⟩ := step_eq_next h
  · exact .inl (takeReset_faultMark _)
  · rw [writeResp_faultMark, stateShowsFault_writeResp]
    split
    · exact .inr ⟨rfl, ‹_›⟩
    · exact .inl rfl
  · exact .inl rfl
  · exact .inl (losePower_faultMark _)

/-- There is one fault, so a state that is marked is marked with it. -/
theorem eq_respInvalid_of_ne_none {m : Option Fault} (h : m ≠ none) : m = some .respInvalid := by
  obtain ⟨⟨⟩, rfl⟩ := Option.ne_none_iff_exists'.mp h
  rfl

/-- Settles O53: a step that does not keep the mark sets the only one there is, on a state that shows the fault. -/
theorem markIsStickyAndSetOnlyByAFault : Obligations.MarkIsStickyAndSetOnlyByAFault := by
  intro s t h
  obtain hkept | ⟨hset, hshows⟩ := faultMark_of_step h
  · exact ⟨fun _ => hkept, fun hs ht => absurd (hkept.trans hs) ht⟩
  · exact ⟨fun hs => hset.trans (eq_respInvalid_of_ne_none hs).symm, fun _ _ => hshows⟩

/-! ### Copies of the block (R150) -/

/-- Everything a step of a copy can do when it answers a next system: that copy makes its own step in its own place
(R150; log entry 12). -/
theorem stepCopy_eq_next {k : ℕ} {y y' : System} (h : stepCopy k y = some (.next y')) :
    ∃ s t, y.copies[k]? = some s ∧ step s = .next t ∧ y' = { copies := y.copies.set k t } := by
  unfold stepCopy at h
  split at h
  · cases h
  · next s hs =>
    split at h
    · next t ht =>
      cases h
      exact ⟨s, t, hs, ht, rfl⟩
    · cases h
    · cases h

/-- Settles O55: setting the place of the copy that steps leaves the other places and the length alone. -/
theorem copiesOfTheBlockDoNotInteract : Obligations.CopiesOfTheBlockDoNotInteract := by
  intro k y y' h
  obtain ⟨s, t, hs, ht, rfl⟩ := stepCopy_eq_next h
  obtain ⟨hk, -⟩ := List.getElem?_eq_some_iff.mp hs
  exact ⟨⟨s, t, hs, ht, List.getElem?_set_self hk⟩, fun j hj => List.getElem?_set_ne hj.symm, List.length_set⟩

/-! ### A stopped clock and power loss (R152) -/

/-- A step is the event the host does next, with that event off the schedule (R120). -/
theorem step_event (ev : HostEvent) (s : State) (rest : List HostEvent) :
    step { s with host := ev :: rest } = hostEvent ev { s with host := rest } :=
  step_of_cons (s := { s with host := ev :: rest }) rfl

/-- Settles O43: a stopped clock does nothing, and power loss takes the registers only. -/
theorem clockStopHoldsAndPowerLossUnresets : Obligations.ClockStopHoldsAndPowerLossUnresets :=
  fun s rest => ⟨step_event .clockStopped s rest, step_event .powerLoss s rest⟩

end Sys2Proof.Machine
end

section
/-! PROOFS. Reset (spec/70_reset_and_hazards.md R171, R172, R175; spec/10_state.md section 4), and an ENC response fed back
as a DEC operand (R177). -/

namespace Sys2Proof.Machine

/-! ### The reset cycle (R171) -/

/-- Settles O38: a reset edge leaves the same state whatever the request was. -/
theorem resetGivesTheResetStateFromAnyState : Obligations.ResetGivesTheResetStateFromAnyState :=
  fun s _ rest => ⟨_, step_cycle_reset rfl s rest, takeReset_resp _, fun _ => step_cycle_reset rfl s rest⟩

/-- Settles O40: the reset data is the number 0, and DEC of (0, 0, 0, 0) is +0.0. -/
theorem stateRightAfterResetHoldsTheResetValues : Obligations.StateRightAfterResetHoldsTheResetValues := by
  obtain ⟨hdec, -⟩ := decCornerCases
  exact ⟨rfl, by decide, hdec.symm, respShowsFault_reset⟩

/-! ### Reset cycles, then a request (R172) -/

/-- Reset cycles and then a request, on a block that is reset by the time the request comes. The next state of each reset
cycle is a block that has been reset, which is all that the cycles behind it need. -/
theorem observation_resets_request {ps : List Pins} (hps : ∀ q ∈ ps, q.rst = 1#1) {p : Pins} (hrst : p.rst = 0#1)
    (hreq : p.req.valid = 1#1) (rest : List HostEvent) {s : State} (hs : ps = [] → s.resp ≠ none) :
    observation (ps.length + 1) { s with host := ps.map .cycle ++ .cycle p :: rest } =
      ps.map (fun _ => some Resp.reset) ++ [some (responseTo p.req)] := by
  induction ps generalizing s with
  | nil => exact observation_succ_of_step (step_cycle_request (hs rfl) hrst hreq rest) 0
  | cons q ps ih =>
    obtain ⟨hq, hps⟩ := List.forall_mem_cons.mp hps
    have hstep := step_cycle_reset hq s (ps.map .cycle ++ .cycle p :: rest)
    have hrec := ih hps (s := takeReset s) fun _ => Option.some_ne_none _
    exact (observation_succ_of_step hstep _).trans (congrArg (some Resp.reset :: ·) hrec)

/-- Settles O39: with a reset cycle before the request, the block may start unreset. -/
theorem oneResetCycleIsEnough : Obligations.OneResetCycleIsEnough :=
  fun _ _ _ rest hne hps hrst hreq => observation_resets_request hps hrst hreq rest fun hnil => absurd hnil hne

/-! ### A run from any state (R175, R129) -/

/-- Settles O50: the reset cycle completes from any state, the cycles behind it complete on a block that has been reset,
and then the schedule is empty. -/
theorem runThatStartsWithAResetCompletes : Obligations.RunThatStartsWithAResetCompletes := by
  intro es s hrun
  obtain ⟨p, ps, hp, rfl⟩ := (isRun_iff es).mp hrun
  have hstep := step_cycle_reset hp s (ps.map .cycle)
  obtain ⟨t, hafter, hresp, hhost⟩ :=
    onceResetTheBlockNeverStopsOnACycle ps (takeReset s) [] (Option.some_ne_none _)
  rw [List.append_nil] at hafter
  refine ⟨t, ?_, hresp, hhost, step_of_nil hhost⟩
  rw [List.length_cons, List.length_map, stateAfter_succ_of_step hstep]
  exact hafter

/-! ### An ENC response as a DEC operand (R177) -/

/-- The low half of ENC's result data is N (R65). -/
theorem zext64_low (n : Word32) : (zext64 n).extractLsb' 0 32 = n := by
  rw [zext64, ← BitVec.setWidth_eq_extractLsb' (by decide), BitVec.setWidth_setWidth_of_le _ (by decide),
    BitVec.setWidth_eq]

/-- The response to an ENC request is the registers that `enc` writes (R80, R121). -/
theorem responseTo_enc (f : F64) : responseTo (requestOf (.enc f)) = encResp f :=
  if_pos rfl

/-- A DEC request whose operand is ENC's result data is answered by DEC of N (R177). -/
theorem responseTo_dec_zext64 (n : Word32) :
    responseTo ⟨1#1, 1#1, zext64 n⟩ = { valid := 1#1, op := 1#1, data := decFn n, invalid := 0#1 } := by
  rw [responseTo, if_neg (show (1#1 : Bit) ≠ 0#1 by decide), zext64_low]

/-- Settles O49: `enc` leaves a block that has been reset, with N in the low half of the data, and the next cycle decodes
that half. -/
theorem roundTripTakesTwoRequests : Obligations.RoundTripTakesTwoRequests := by
  intro f s rest hs
  have henc := step_cycle_request (p := instrPins (.enc f)) hs rfl rfl rest
  rw [instrPins, responseTo_enc] at henc
  refine ⟨_, encResp f, henc, writeResp_resp _ _, _,
    step_cycle_request (Option.some_ne_none _) rfl rfl rest, ?_⟩
  rw [writeResp_resp, encResp_data, responseTo_dec_zext64]

end Sys2Proof.Machine
end
